-- ==== Sys2Proof/Word.lean ====
section
/-! DEFINITION. The words of the machine: bytes, 24-bit addresses and instruction fields, 16-bit selectors and masks,
and the 72-bit instruction word (00_scope.md R5, R6; 30_encoding.md R91). -/

namespace Sys2Proof

/-- A byte: 8 bits, unsigned (R5). -/
abbrev Byte := BitVec 8

/-- An address or an instruction field: 24 bits, unsigned (R4 `ADDR_BITS`, R92). -/
abbrev Addr := BitVec 24

/-- A 16-bit value: the keyboard mask and the audio page selector (R27, R29). -/
abbrev Half := BitVec 16

/-- The instruction word `W` of R91: nine bytes, the byte at `pc` most significant. -/
abbrev InstrWord := BitVec 72

end Sys2Proof
end

