-- ==== Sys2Proof/Machine/Bytes.lean ====
section
/-! DEFINITION. Byte order: how bytes make 16-bit, 24-bit and 72-bit values and how values split into bytes, always
big-endian (00_scope.md R7, 20_memory.md R56). `++` on bit vectors is the concatenation of R6: the left operand is the
more significant one. -/

namespace Sys2Proof.Machine

/-- Two bytes as a 16-bit value, the first one most significant (R56, R58). -/
def be16 (b0 b1 : Byte) : Half := b0 ++ b1

/-- Three bytes as a 24-bit value, the first one most significant (R56, R59). -/
def be24 (b0 b1 b2 : Byte) : Addr := b0 ++ b1 ++ b2

/-- Three fields as the 72-bit instruction word `W`: A in W[71:48], B in W[47:24], J in W[23:0] (R91). -/
def be72 (a b j : Addr) : InstrWord := a ++ b ++ j

/-- `v[15:8]` (R61). -/
def hiByte (v : Half) : Byte := v.extractLsb' 8 8

/-- `v[7:0]` (R61). -/
def loByte (v : Half) : Byte := v.extractLsb' 0 8

/-- A 24-bit value as its three bytes in address order: `v[23:16]`, `v[15:8]`, `v[7:0]` (R65 (a), R91). -/
def addrBytes (v : Addr) : List Byte := [v.extractLsb' 16 8, v.extractLsb' 8 8, v.extractLsb' 0 8]

/-- Field A of the instruction word, W[71:48] (R91). -/
def fieldA (w : InstrWord) : Addr := w.extractLsb' 48 24

/-- Field B of the instruction word, W[47:24] (R91). -/
def fieldB (w : InstrWord) : Addr := w.extractLsb' 24 24

/-- Field J of the instruction word, W[23:0] (R91). -/
def fieldJ (w : InstrWord) : Addr := w.extractLsb' 0 24

/-- The number that a byte sequence stands for: the sum of `byte k × 256^(n-1-k)` (R56). -/
def beValue (bytes : List Byte) : Nat := bytes.foldl (fun acc b => acc * 256 + b.toNat) 0

end Sys2Proof.Machine
end

