-- ==== Sys2Proof/Config.lean ====
section
/-! DEFINITION. The fixed parameters of the machine (00_scope.md R4) and the one OPEN parameter the model keeps free. -/

namespace Sys2Proof

/-- `MEM_SIZE`: 2^24 bytes; the valid addresses are 0x000000 to 0xFFFFFF (R4, R50). -/
abbrev Config.memSize : Nat := 16777216

/-- `INSTR_BYTES` (R4, R90). -/
abbrev Config.instrBytes : Nat := 9

/-- `CYCLES_PER_FRAME`: 65,536 instruction cycles in every frame (R4, R132). -/
abbrev Config.cyclesPerFrame : Nat := 65536

/-- `KEY_ADDR`: the keyboard state, 2 bytes (R4, R27). -/
abbrev Config.keyAddr : Nat := 0x000000

/-- `PCF_ADDR`: the program-counter field, 3 bytes (R4, R26). -/
abbrev Config.pcfAddr : Nat := 0x000002

/-- `SCR_ADDR`: the screen page selector, 1 byte (R4, R28). -/
abbrev Config.scrAddr : Nat := 0x000005

/-- `AUD_ADDR`: the audio page selector, 2 bytes (R4, R29). -/
abbrev Config.audAddr : Nat := 0x000006

/-- `SCR_PAGE_BYTES` (R4, R155). -/
abbrev Config.screenPageBytes : Nat := 65536

/-- `AUD_PAGE_BYTES` (R4, R160). -/
abbrev Config.audioPageBytes : Nat := 256

/-- `KEY_COUNT` (R4). -/
abbrev Config.keyCount : Nat := 16

/-- `FRAME_HZ`, the target frame rate: a documented constant; the model has no time (R139, D11). -/
abbrev Config.frameHz : Nat := 60

/-- `AUDIO_HZ`: one audio page for each frame (R4, R161). -/
abbrev Config.audioHz : Nat := Config.audioPageBytes * Config.frameHz

/-- `PIXEL_ORDER`, OPEN (D17, R156; log 14): a bijection from the offset of a byte in the screen page to the pixel it
is; the pixel's column is the low byte of the result and its row the high byte. It has no body: a claim holds for every
bijection. -/
opaque Config.pixelOrder : Equiv.Perm Half

end Sys2Proof
end

