-- ==== Sys2Proof/Machine/State.lean ====
section
/-! DEFINITION. The state of the machine as plain data, the reasons a step can stop, and the state after reset
(10_state.md R37, R35; 42_mmio_interface.md R170; 60_exceptions.md R180 to R186). -/

namespace Sys2Proof.Machine

/-- Memory: the cells that differ from an unlisted one, by strictly rising address. -/
abbrev Memory := List Host.Cell

/-- What an address that is not listed reads as: memory is zero-initialized (R35, R210). -/
def Memory.unlisted : Byte := 0x00#8

/-- The canonical form: addresses strictly rising, every address valid (R50), no cell equal to an unlisted one. -/
abbrev Memory.wf (m : Memory) : Prop :=
  m.Pairwise (fun c d => c.1 < d.1) ∧ ∀ c ∈ m, c.1 < Config.memSize ∧ c.2 ≠ Memory.unlisted

/-- `OutOfRange(addr, n)`: the address and size of an access that is not in range (R54, R181). -/
structure OutOfRange where
  addr : Nat
  size : Nat
  deriving DecidableEq, Repr

/-- `LoadSize(offset, len)`: a load that does not fit (R63, R182). -/
structure LoadSize where
  offset : Nat
  len : Nat
  deriving DecidableEq, Repr

/-- `MODE`, the sequencer mode (R32). -/
inductive Mode where
  /-- Between frames and before the first one. -/
  | idle
  /-- While a frame's cycles are executed. -/
  | run
  /-- After a fatal error. -/
  | faulted
  deriving DecidableEq, Repr

/-- Where the launch of this machine instance stands: LOAD_ROM happens once, before the first frame (R150, R170), and
after a LOAD_ROM that failed no frame is ever started (R182). The model's own field (log 4). -/
inductive Launch where
  /-- After reset, nothing loaded. -/
  | fresh
  /-- A ROM is in place. -/
  | loaded
  /-- The load failed with LoadSize: the run does not begin. -/
  | refused
  /-- The first frame has been started. -/
  | started
  deriving DecidableEq, Repr

/-- The operations the host can perform on the core (R170). -/
inductive HostOp where
  /-- `RESET`, enabled always (R210, R212). While a frame runs it is taken as soon as `fromCycle` of the frame's cycles
  are done, so that every moment of a frame can be the one at which it arrives (log 8). -/
  | reset (fromCycle : Nat)
  /-- `LOAD_ROM(bytes)` (R150). -/
  | loadRom (bytes : List Byte)
  /-- `KEY_WRITE(mask)` (R152). -/
  | keyWrite (mask : Half)
  /-- `FRAME_TICK` (R130). -/
  | frameTick
  /-- `SCREEN_SAMPLE` (R155). -/
  | screenSample
  /-- `AUDIO_SAMPLE` (R160). -/
  | audioSample
  /-- `DUMP` (R168). -/
  | dump
  deriving DecidableEq, Repr

/-- What the core returns or reports to the host. -/
inductive Reply where
  /-- A frame completed (R133). -/
  | frameDone
  /-- A fatal error ended the frame (R134, R184). -/
  | fatal (e : OutOfRange)
  /-- A load did not fit (R182). -/
  | loadSize (e : LoadSize)
  /-- The screen page, in address order (R155). -/
  | screen (bytes : List Byte)
  /-- The audio page, in address order (R160). -/
  | audio (bytes : List Byte)
  /-- All of memory, in address order (R168). -/
  | dump (bytes : List Byte)
  deriving DecidableEq, Repr

/-- The machine and, beside it, what passes between it and the host. `M`, `PC`, `MODE` and `N` are the whole state of
the core (R37); KEY, PCF, SCR and AUD are bytes of `M` (R25). -/
structure State where
  /-- `M`, the memory array (R50). -/
  mem : Memory
  /-- `PC`, the engine's register (R21). -/
  pc : Addr
  /-- `MODE` (R32). -/
  mode : Mode
  /-- `N`, the cycles completed in the current frame, 0 to 65,536 (R32). -/
  cycles : Nat
  /-- Where the launch stands (log 4). -/
  launch : Launch
  /-- The mask of the KEY_WRITE made for the next frame, none while it has not been made (R138, R152, U11). The model's own
  field (log 9). -/
  keyWritten : Option Half
  /-- The host operations asked for and not yet performed, first one first (log 2). -/
  requests : List HostOp
  /-- What the core has answered, newest first (log 3). -/
  replies : List Reply
  deriving DecidableEq, Repr

/-- Why a step stops with a fault. -/
inductive Fault where
  /-- Raised by a step in MODE = FAULTED when the host asks for nothing: the run ended with a fatal error, FAULTED is
  absorbing and no step of the engine leaves it (R184, R186; log 5). Safe. -/
  | faulted
  deriving DecidableEq, Repr

/-- Why a step is refused. -/
inductive Refusal where
  /-- An instruction that has no meaning yet, by mnemonic. No arm of exec answers it. Safe. -/
  | notModelled (mnemonic : String)
  /-- A host operation outside its proper moment: it has no step (R170, R141, R186, D9, U11; log 5, log 9). Safe. -/
  | notEnabled (op : HostOp)
  deriving DecidableEq, Repr

/-- The machine right after reset (R35, R210): every byte of memory 0x00, MODE idle, N 0. The spec gives `PC` no value;
0x000000 is the model's (DESIGN CHOICE, log 1; unsafe). The host has asked for nothing and been told nothing. -/
def State.reset : State where
  mem := []
  pc := 0x000000#24
  mode := .idle
  cycles := 0
  launch := .fresh
  keyWritten := none
  requests := []
  replies := []

end Sys2Proof.Machine
end

