-- ==== Sys2Proof/Machine/Ops.lean ====
section
/-! DEFINITION. The named operations over memory and registers: the raw byte `M[a]`, the range-checked accessors
(20_memory.md R54 to R64), updates of single fields of the state, and taking the fatal error (60_exceptions.md R184). -/

namespace Sys2Proof.Machine

/-! ### Raw bytes -/

/-- `M[a]`: the byte at `a` (R8, R50). -/
def Memory.byte : Memory → Nat → Byte
  | [], _ => Memory.unlisted
  | c :: rest, a => if c.1 = a then c.2 else Memory.byte rest a

/-- The cells without the one at `a`. -/
def Memory.clear (m : Memory) (a : Nat) : Memory := m.filter (fun c => decide (c.1 ≠ a))

/-- The cells with `(a, v)` at its place in the rising order. -/
def Memory.put : Memory → Nat → Byte → Memory
  | [], a, v => [(a, v)]
  | c :: rest, a, v =>
    if a < c.1 then (a, v) :: c :: rest
    else if a = c.1 then (a, v) :: rest
    else c :: Memory.put rest a v

/-- `M[a] <- v`. Writing what an unlisted address reads as removes the cell. -/
def Memory.setByte (m : Memory) (a : Nat) (v : Byte) : Memory :=
  if v = Memory.unlisted then m.clear a else m.put a v

/-- `M[a], M[a+1], …` `<-` the bytes in order. -/
def Memory.setBytes : Memory → Nat → List Byte → Memory
  | m, _, [] => m
  | m, a, b :: bs => Memory.setBytes (m.setByte a b) (a + 1) bs

/-- The `n` bytes `M[a] … M[a+n-1]` in address order. -/
def Memory.bytesAt (m : Memory) (a : Nat) : Nat → List Byte
  | 0 => []
  | n + 1 => m.byte a :: m.bytesAt (a + 1) n

/-! ### Range-checked accessors -/

/-- An access of `n` bytes at `addr` is in range: `addr + n - 1 ≤ 0xFFFFFF` on unbounded integers (R54; no wrap, R5,
C1; log 10). Written without the subtraction, so that `n = 0` is the bound of R63 and R64 too. -/
def inRange (addr n : Nat) : Bool := decide (addr + n ≤ Config.memSize)

/-- `MemRead(addr, 1)` (R57). -/
def Memory.read8 (m : Memory) (addr : Nat) : Except OutOfRange Byte :=
  if inRange addr 1 then .ok (m.byte addr) else .error ⟨addr, 1⟩

/-- `MemRead(addr, 2)` (R58). -/
def Memory.read16 (m : Memory) (addr : Nat) : Except OutOfRange Half :=
  if inRange addr 2 then .ok (be16 (m.byte addr) (m.byte (addr + 1))) else .error ⟨addr, 2⟩

/-- `MemRead(addr, 3)` (R59). -/
def Memory.read24 (m : Memory) (addr : Nat) : Except OutOfRange Addr :=
  if inRange addr 3 then .ok (be24 (m.byte addr) (m.byte (addr + 1)) (m.byte (addr + 2))) else .error ⟨addr, 3⟩

/-- `MemWrite(addr, 1, v)` (R60). -/
def Memory.write8 (m : Memory) (addr : Nat) (v : Byte) : Except OutOfRange Memory :=
  if inRange addr 1 then .ok (m.setByte addr v) else .error ⟨addr, 1⟩

/-- `MemWrite(addr, 2, v)` (R61): the range of both bytes is checked before either is written (R55; log 20). -/
def Memory.write16 (m : Memory) (addr : Nat) (v : Half) : Except OutOfRange Memory :=
  if inRange addr 2 then .ok ((m.setByte addr (hiByte v)).setByte (addr + 1) (loByte v)) else .error ⟨addr, 2⟩

/-- `load(offset, bytes)` (R63): the size is checked first, so a failing load copies nothing (D10; log 20). -/
def Memory.load (m : Memory) (offset : Nat) (bytes : List Byte) : Except LoadSize Memory :=
  if inRange offset bytes.length then .ok (m.setBytes offset bytes) else .error ⟨offset, bytes.length⟩

/-- `slice(start, len)` (R64): a copy (D20). -/
def Memory.slice (m : Memory) (start len : Nat) : Except OutOfRange (List Byte) :=
  if inRange start len then .ok (m.bytesAt start len) else .error ⟨start, len⟩

/-! ### Updates of the state -/

/-- The state with memory `m`. -/
def State.withMem (s : State) (m : Memory) : State := { s with mem := m }

/-- The state with `PC = p`. -/
def State.withPc (s : State) (p : Addr) : State := { s with pc := p }

/-- The state with one more answer to the host. -/
def State.reply (s : State) (r : Reply) : State := { s with replies := r :: s.replies }

/-- Taking the fatal error (R184, R134): `M` and `PC` stay as they were at the start of the cycle, `N` counts the
completed cycles only, MODE becomes FAULTED, and the error is reported. Nothing is saved and control goes nowhere: there
is no vector, no handler and no return (R186). -/
def State.takeFault (s : State) (e : OutOfRange) : State := { s.reply (.fatal e) with mode := .faulted }

end Sys2Proof.Machine
end

