-- ==== Sys2Proof/Machine/Operands.lean ====
section
/-! DEFINITION. The operand forms. There is one: a 24-bit absolute address, used exactly as encoded, one byte wide
(40_copy_jump.md R119). Both operands go through the range-checked accessors; R114 says the check never fires. -/

namespace Sys2Proof.Machine

/-- The load: `MemRead(A, 1)` (R119). -/
def loadOperand (m : Memory) (a : Addr) : Except OutOfRange Byte := m.read8 a.toNat

/-- The store: `MemWrite(B, 1, d)` (R119). -/
def storeOperand (m : Memory) (b : Addr) (d : Byte) : Except OutOfRange Memory := m.write8 b.toNat d

end Sys2Proof.Machine
end

