-- ==== Sys2Proof/Syntax.lean ====
section
/-! DEFINITION. The instruction set: one instruction (30_encoding.md R90, R93; opcode_table.json). -/

namespace Sys2Proof

/-- The instructions. -/
inductive Instr where
  /-- CPJ A, B, J: copy the byte at `a` to `b`, continue at `j` (R111). The three fields are 24-bit absolute
  addresses; every value of each is legal (R92, R94). -/
  | cpj (a b j : Addr)
  deriving DecidableEq, Repr

end Sys2Proof
end

