-- ==== Sys2Proof/Machine/CopyJump.lean ====
section
/-! DEFINITION. The copy-and-jump instruction (40_copy_jump.md R111). -/

namespace Sys2Proof.Machine

/-- CPJ A, B, J, from step 3 of R111 on (the fetch has read all three fields): read the data byte at A, write it to B,
then `PC <- J`, the J fetched before the write (D4, C4; log 11). -/
def execCpj (a b j : Addr) (s : State) : Host.Outcome State Fault Refusal :=
  match loadOperand s.mem a with
  | .error e => .next (s.takeFault e)
  | .ok d =>
    match storeOperand s.mem b d with
    | .error e => .next (s.takeFault e)
    | .ok m => .next ((s.withMem m).withPc j)

end Sys2Proof.Machine
end

