-- ==== Sys2Proof/WellFormed.lean ====
section
/-! DEFINITION. What the spec asks of an instruction, of the place it stands in and of a ROM.

No field value makes an instruction ill-formed: "there are no illegal encodings" (30_encoding.md R94). The spec's two
checks are about WHERE an instruction stands (40_copy_jump.md R113) and about how long a ROM is (42_mmio_interface.md
R150). -/

namespace Sys2Proof

/-- Every instruction is well-formed: all 2^72 bit patterns are legal (R94). -/
def Instr.wf : Instr → Bool
  | .cpj _ _ _ => true

/-- An instruction can be fetched from `pc` exactly when its nine bytes lie in memory, `pc ≤ 0xFFFFF7` (R113). -/
def fetchable (pc : Addr) : Bool := decide (pc.toNat ≤ 0xFFFFF7)

/-- A ROM fits: its length is at most 16,777,216; length 0 is legal (R150). -/
def romFits (rom : List Byte) : Bool := decide (rom.length ≤ Config.memSize)

end Sys2Proof
end

