-- ==== Sys2Proof/Decode.lean ====
section
/-! DEFINITION. Decoding and encoding (30_encoding.md R90 to R95). -/

namespace Sys2Proof

open Machine

/-- Why a byte sequence is no instruction. -/
inductive DecodeError where
  /-- Fewer than nine bytes: every instruction is nine bytes long (R90). The engine never meets this: its fetch reads
  nine bytes or faults (log 19; safe). -/
  | truncated
  deriving DecidableEq, Repr

/-- The instruction of a 72-bit word: every word is a CPJ with the fields of R91 (R93). -/
def decodeWord (w : InstrWord) : Instr := .cpj (fieldA w) (fieldB w) (fieldJ w)

/-- The instruction at the front of a byte sequence, with the bytes after it. Total; the only rejection is for want of
bytes (R93, R94). -/
def decode : List Byte → Except DecodeError (Instr × List Byte)
  | b0 :: b1 :: b2 :: b3 :: b4 :: b5 :: b6 :: b7 :: b8 :: rest =>
    .ok (decodeWord (be72 (be24 b0 b1 b2) (be24 b3 b4 b5) (be24 b6 b7 b8)), rest)
  | _ => .error .truncated

/-- The nine bytes of an instruction: A, B, J, each three bytes big-endian (R91, R96). -/
def encode : Instr → List Byte
  | .cpj a b j => addrBytes a ++ addrBytes b ++ addrBytes j

/-- The nine bytes of a 72-bit word, most significant first (R91). -/
def wordBytes (w : InstrWord) : List Byte :=
  addrBytes (fieldA w) ++ addrBytes (fieldB w) ++ addrBytes (fieldJ w)

/-- The 72-bit word whose low `nbits` bits are those of `w` and whose other bits are 0. Bit 0 is bit 0 of the table's
72-bit word, so it lies in the byte at `pc + 8` (opcode_table.json: "byte at pc is most significant"; log 17). -/
def tableWord (nbits w : Nat) : InstrWord := BitVec.ofNat 72 (w % 2 ^ nbits)

/-- What the decoder reads from the instruction whose bits, numbered as opcode_table.json numbers them, are `w`. -/
def decodeTableWord (nbits w : Nat) : Option Instr :=
  match decode (wordBytes (tableWord nbits w)) with
  | .ok (i, _) => some i
  | .error _ => none

end Sys2Proof
end

