-- ==== Sys2Proof/Machine/Fetch.lean ====
section
/-! DEFINITION. Fetching an instruction (40_copy_jump.md R112, R113), and placing one where the next step fetches it. -/

namespace Sys2Proof.Machine

/-- The instruction word at `pc`: three field reads, A, then B, then J, each range-checked, the sums exact (R112). The
error is that of the first read that fails (R113, R185). -/
def fetchWord (m : Memory) (pc : Addr) : Except OutOfRange InstrWord :=
  match m.read24 pc.toNat with
  | .error e => .error e
  | .ok a =>
    match m.read24 (pc.toNat + 3) with
    | .error e => .error e
    | .ok b =>
      match m.read24 (pc.toNat + 6) with
      | .error e => .error e
      | .ok j => .ok (be72 a b j)

/-- The program-counter field `PCF` (R26). -/
def pcf (m : Memory) : Addr :=
  be24 (m.byte Config.pcfAddr) (m.byte (Config.pcfAddr + 1)) (m.byte (Config.pcfAddr + 2))

/-- A RESET stands first among the requests and is to be taken now: at once outside a frame, and within a frame when the
cycles it waits for are done (R212; log 8). -/
def resetDue (s : State) : Bool :=
  match s.requests with
  | .reset fromCycle :: _ => decide (s.mode ≠ .run ∨ fromCycle ≤ s.cycles)
  | _ => false

/-- A cycle of a frame is what the state would do next, requests apart. -/
def inFrame (s : State) : Bool := decide (s.mode = .run ∧ s.cycles < Config.cyclesPerFrame)

/-- Where an instruction placed for the next step stands: at `PC` in a running frame, else where a frame would start,
else (neither can be fetched from) at 0x000000. -/
def placeAt (s : State) : Addr :=
  if inFrame s && fetchable s.pc then s.pc
  else if fetchable (pcf s.mem) then pcf s.mem
  else 0x000000#24

/-- The state in which the next step runs the instruction `w` (log 18): its nine bytes at `placeAt s`, `PC` there, a
frame running with a cycle left, its KEY_WRITE used up, and no RESET in the way. It stands for loading a program and starting a frame. -/
def placeWord (s : State) (w : InstrWord) : State :=
  let n := if inFrame s then s.cycles else 0
  { s with
    mem := s.mem.setBytes (placeAt s).toNat (wordBytes w)
    pc := placeAt s
    mode := .run
    cycles := n
    launch := .started
    keyWritten := none
    requests := if resetDue { s with mode := .run, cycles := n } then [] else s.requests }

end Sys2Proof.Machine
end

