-- ==== Sys2Proof/Machine/Sequencer.lean ====
section
/-! DEFINITION. The frame sequencer (41_frame_sequencer.md R130 to R137). -/

namespace Sys2Proof.Machine

/-- Frame start, step 1 of `frame_tick` (R131): `PC <- MemRead(0x000002, 3)`, `N <- 0`, `MODE <- RUN`. This is the only
place where `PC` is loaded from memory; it is never written back (R136, D6; log 12). The KEY_WRITE made for this frame is
used up: the next frame needs one of its own (R138, R152; log 9). -/
def frameStart (s : State) : State :=
  match s.mem.read24 Config.pcfAddr with
  | .error e => s.takeFault e
  | .ok p => { s with pc := p, mode := .run, cycles := 0, launch := .started, keyWritten := none }

/-- Frame end, step 3 of `frame_tick` (R133): `MODE <- IDLE` and completion is reported; `M` and `PC` stay. -/
def frameEnd (s : State) : State := { s.reply .frameDone with mode := .idle }

/-- After a cycle that completed: `N <- N + 1` (R132), and the frame ends with the cycle that makes it 65,536 (R133;
log 6). A cycle that took the fatal error is not counted (R134). -/
def completeCycle (s : State) : State :=
  if s.mode = .run then
    let t := { s with cycles := s.cycles + 1 }
    if t.cycles < Config.cyclesPerFrame then t else frameEnd t
  else s

/-- One instruction cycle of a running frame: fetch (R112), or the fatal error (R113, R184); decode; execute; count. -/
def engineCycle (s : State) : Host.Outcome State Fault Refusal :=
  match fetchWord s.mem s.pc with
  | .error e => .next (s.takeFault e)
  | .ok w =>
    match exec (decodeWord w) s with
    | .next t => .next (completeCycle t)
    | .fault r => .fault r
    | .refused r => .refused r

/-- A step while MODE = RUN (R132, R133): a cycle while `N < 65,536`, else the frame's end. The host waits: it is the
thread that is inside `frame_tick` (R141). -/
def runStep (s : State) : Host.Outcome State Fault Refusal :=
  if s.cycles < Config.cyclesPerFrame then engineCycle s else .next (frameEnd s)

/-! ### `frame_tick` as a function (R121, R137)

The same cycle as a function of `(M, PC)` alone, written from the pseudocode of R111. The claims about whole frames
compare the stepping machine with it. -/

/-- `cycle(M, PC)` (R121): R111's seven lines. -/
def cycle (m : Memory) (pc : Addr) : Except OutOfRange (Memory × Addr) :=
  match m.read24 pc.toNat, m.read24 (pc.toNat + 3), m.read24 (pc.toNat + 6) with
  | .error e, _, _ => .error e
  | .ok _, .error e, _ => .error e
  | .ok _, .ok _, .error e => .error e
  | .ok a, .ok b, .ok j => .ok (m.setByte b.toNat (m.byte a.toNat), j)

/-- `k` cycles in a row, stopping at the first fatal error (R132, R134). -/
def cyclesFrom : Nat → Memory → Addr → Except OutOfRange (Memory × Addr)
  | 0, m, pc => .ok (m, pc)
  | k + 1, m, pc =>
    match cycle m pc with
    | .error e => .error e
    | .ok (m', pc') => cyclesFrom k m' pc'

end Sys2Proof.Machine
end

