-- ==== Sys2Proof/Machine/HostOps.lean ====
section
/-! DEFINITION. The host operations (42_mmio_interface.md R170): what each does and when it is enabled. An operation
outside its moment has no step: it is refused by name (D9; log 5). Each takes the state with the request itself already
removed. The accesses of KEY_WRITE and of the samplings are in range by construction (R181); the branch for an error is
there because the accessors are total. -/

namespace Sys2Proof.Machine

/-- The screen page: the 65,536 bytes at `SCR × 65,536` (R155, R28). -/
def screenPage (m : Memory) : Except OutOfRange (List Byte) :=
  match m.read8 Config.scrAddr with
  | .error e => .error e
  | .ok page => m.slice (page.toNat * Config.screenPageBytes) Config.screenPageBytes

/-- The audio page: the 256 bytes at `AUD × 256` (R160, R29). -/
def audioPage (m : Memory) : Except OutOfRange (List Byte) :=
  match m.read16 Config.audAddr with
  | .error e => .error e
  | .ok sel => m.slice (sel.toNat * Config.audioPageBytes) Config.audioPageBytes

/-- `RESET` (R210): memory all zero, MODE idle, N 0, a new machine instance. What the host still asks for and what it
was told are the host's own and stay. `PC`, unspecified, gets the value it has in State.reset (log 1). -/
def resetCore (s : State) : State := { State.reset with requests := s.requests, replies := s.replies }

/-- `LOAD_ROM(bytes)` (R150, R182), once, before the first frame. A ROM that does not fit is reported, copies nothing and
refuses the launch. A KEY_WRITE made before it is void: bytes 0 and 1 are the ROM's now, and the frame loop, which begins
after the load, begins with a KEY_WRITE (R211; log 9). -/
def loadRom (bytes : List Byte) (s : State) : Host.Outcome State Fault Refusal :=
  if s.launch = .fresh then
    match s.mem.load 0 bytes with
    | .ok m => .next { s with mem := m, launch := .loaded, keyWritten := none }
    | .error e => .next { s.reply (.loadSize e) with launch := .refused }
  else .refused (.notEnabled (.loadRom bytes))

/-- `KEY_WRITE(mask)` (R152): `MemWrite(0x000000, 2, mask)`, and the next frame has its keyboard write (log 9). -/
def keyWrite (mask : Half) (s : State) : Host.Outcome State Fault Refusal :=
  match s.mem.write16 Config.keyAddr mask with
  | .ok m => .next { s.withMem m with keyWritten := some mask }
  | .error e => .next (s.takeFault e)

/-- `FRAME_TICK` (R130): the frame starts. No frame is started after a failed load (R182), nor before the host has written
KEY for it (R138, R152, R171, R217): that has no step (U11; log 9). -/
def frameTick (s : State) : Host.Outcome State Fault Refusal :=
  if s.launch = .refused ∨ s.keyWritten = none then .refused (.notEnabled .frameTick) else .next (frameStart s)

/-- `SCREEN_SAMPLE` (R155): a copy of the screen page (R169). -/
def screenSample (s : State) : Host.Outcome State Fault Refusal :=
  match screenPage s.mem with
  | .ok bytes => .next (s.reply (.screen bytes))
  | .error e => .next (s.takeFault e)

/-- `AUDIO_SAMPLE` (R160): a copy of the audio page (R169). -/
def audioSample (s : State) : Host.Outcome State Fault Refusal :=
  match audioPage s.mem with
  | .ok bytes => .next (s.reply (.audio bytes))
  | .error e => .next (s.takeFault e)

/-- `DUMP` (R168): a copy of all 2^24 bytes. -/
def dump (s : State) : Host.Outcome State Fault Refusal :=
  match s.mem.slice 0 Config.memSize with
  | .ok bytes => .next (s.reply (.dump bytes))
  | .error e => .next (s.takeFault e)

/-- One host operation in MODE = IDLE. -/
def hostStep (op : HostOp) (s : State) : Host.Outcome State Fault Refusal :=
  match op with
  | .reset _ => .next (resetCore s)
  | .loadRom bytes => loadRom bytes s
  | .keyWrite mask => keyWrite mask s
  | .frameTick => frameTick s
  | .screenSample => screenSample s
  | .audioSample => audioSample s
  | .dump => dump s

/-- A step while MODE = IDLE: the host's next operation; where it asks for none, the engine idles and all state survives
(R195; log 7). -/
def idleStep (s : State) : Host.Outcome State Fault Refusal :=
  match s.requests with
  | [] => .next s
  | op :: rest => hostStep op { s with requests := rest }

/-- A step while MODE = FAULTED and no RESET is asked for: there is none (R186, R141; log 5). -/
def faultedStep (s : State) : Host.Outcome State Fault Refusal :=
  match s.requests with
  | [] => .fault .faulted
  | op :: _ => .refused (.notEnabled op)

end Sys2Proof.Machine
end

