-- ==== Sys2Proof/Machine/Step.lean ====
section
/-! DEFINITION. One step of the machine, and placing an instruction where the next step fetches it. -/

namespace Sys2Proof.Machine

/-- One step: a RESET that is due (R212), else what MODE allows (R170, R132, R186). -/
def step (s : State) : Host.Outcome State Fault Refusal :=
  if resetDue s then .next (resetCore { s with requests := s.requests.tail })
  else
    match s.mode with
    | .idle => idleStep s
    | .run => runStep s
    | .faulted => faultedStep s

/-- `s` with the instruction whose bits are `w` stored where the next step fetches it (log 18). -/
def State.withFetchWord (s : State) (nbits w : Nat) : State := placeWord s (tableWord nbits w)

end Sys2Proof.Machine
end

