-- ==== Sys2Proof/Machine/Collaborators.lean ====
section
/-! DEFINITION. What the collaborators make of the bytes the core hands them: keyboard source, display, audio sink
(42_mmio_interface.md R153, R156, R158, R161, R163, R164). None of it is read by the core. -/

namespace Sys2Proof.Machine

/-- The mask of the keys held: bit `i` is 1 exactly when key `i` is held (R152, R153; bit `i` has weight 2^i, D7; log
21). Which physical key is key `i` is not part of the core (R154; log 15). -/
def keyMask (held : List (Fin Config.keyCount)) : Half :=
  held.foldl (fun mask key => mask ||| BitVec.twoPow 16 key.val) 0#16

/-- A colour. -/
structure Rgb where
  r : Byte
  g : Byte
  b : Byte
  deriving DecidableEq, Repr

/-- The palette: a 6×6×6 cube for 0 to 215, blue varying fastest, black above (R158; the formula wins over the
document's example for index 35, C2, D23). -/
def palette (idx : Byte) : Rgb :=
  if idx.toNat ≤ 215 then
    { r := BitVec.ofNat 8 (idx.toNat / 36 * 0x33)
      g := BitVec.ofNat 8 (idx.toNat / 6 % 6 * 0x33)
      b := BitVec.ofNat 8 (idx.toNat % 6 * 0x33) }
  else { r := 0#8, g := 0#8, b := 0#8 }

/-- The colours of a screen page, byte by byte in address order (R156, R158). -/
def framebuffer (page : List Byte) : List Rgb := page.map palette

/-- Where the byte at offset `k` of the screen page is on the display, as (column, row), by the OPEN pixel order (R156,
D17; log 14). -/
def pixelPlace (k : Half) : Byte × Byte := (loByte (Config.pixelOrder k), hiByte (Config.pixelOrder k))

/-- The sample value of an audio byte: two's-complement signed 8 bits (R163). -/
def sample (v : Byte) : Int := v.toInt

/-- A buffer of all-zero bytes is silence (R164). -/
def silent (page : List Byte) : Bool := page.all (fun v => decide (v = 0x00#8))

/-- What the audio sink is fed for a sampled page: nothing when it is silent, else its samples, the byte at the page's
base first (R161, R164; D22). -/
def enqueued (page : List Byte) : Option (List Int) :=
  if silent page then none else some (page.map sample)

end Sys2Proof.Machine
end

