-- ==== Sys2Proof/Safety.lean ====
section
/-! DEFINITION. What counts as a safe run, and the terms the claims use. -/

namespace Sys2Proof.Safety

open Sys2Proof.Machine

/-- No fatal error has ended the run (R184). -/
abbrev Safe (s : State) : Prop := s.mode ≠ .faulted

/-- The next step is a step of the engine: a frame runs, a cycle of it is left (R132), and no RESET arrives now. -/
abbrev Running (s : State) : Prop :=
  s.mode = .run ∧ s.cycles < Config.cyclesPerFrame ∧ resetDue s = false

/-- No RESET that arrives within a frame stands first among the requests. -/
def undisturbed (requests : List HostOp) : Bool :=
  match requests with
  | .reset fromCycle :: _ => decide (Config.cyclesPerFrame ≤ fromCycle)
  | _ => true

/-- What the host asks for in one frame period, in the strict order of R138; the wait of its step 5 is no operation. -/
def framePeriod (mask : Half) : List HostOp := [.keyWrite mask, .frameTick, .screenSample, .audioSample]

/-- A whole launch: the ROM, then one frame period for each mask (R211, R138, R140). -/
def launchScript (rom : List Byte) (masks : List Half) : List HostOp := .loadRom rom :: masks.flatMap framePeriod

/-- An access of `n` bytes at `addr` succeeds exactly when it is in range, and raises `OutOfRange(addr, n)` otherwise
(R54). -/
def RangeChecked {α : Type} (access : Except OutOfRange α) (addr n : Nat) : Prop :=
  if addr + n - 1 ≤ 0xFFFFFF then ∃ v, access = .ok v else access = .error ⟨addr, n⟩

/-- The same state but for memory and `PC`. -/
def SameButMemPc (s t : State) : Prop :=
  t.mode = s.mode ∧ t.cycles = s.cycles ∧ t.launch = s.launch ∧ t.keyWritten = s.keyWritten ∧
    t.requests = s.requests ∧ t.replies = s.replies

/-- What every run keeps true, from reset on.

`memory`: memory stands in its canonical form. `count`: `N` is at most 65,536 (R32). `running`: while a frame runs a
cycle of it is left and the launch has started. `stopped`: FAULTED is entered only from a frame, by a fetch that cannot
be made, and that error is the last report (R134, R184). `keyed`: a KEY_WRITE made for the next frame stands in KEY until
that frame starts (R152; log 9). -/
structure RunInvariant (s : State) : Prop where
  memory : s.mem.wf
  count : s.cycles ≤ Config.cyclesPerFrame
  running : s.mode = .run → s.cycles < Config.cyclesPerFrame ∧ s.launch = .started
  stopped : s.mode = .faulted → s.cycles < Config.cyclesPerFrame ∧ s.launch = .started ∧
    ∃ e, fetchWord s.mem s.pc = .error e ∧ s.replies.head? = some (.fatal e)
  keyed : ∀ mask, s.keyWritten = some mask → s.mode = .idle ∧ s.mem.read16 Config.keyAddr = .ok mask

end Sys2Proof.Safety
end

