-- ==== Sys2Proof/Certificates/Slice0/Obligations.lean ====
section
/-! DEFINITION. The statements for the provers. Each docstring says which rule of spec/ it formalises. -/

open Sys2Proof Sys2Proof.Machine Sys2Proof.Safety

/-! ### Encoding (30_encoding.md) -/

/-- Decoding an encoded instruction gives it back, with the bytes after it untouched, for every value of every field
(R91, R93). -/
def Obligations.DecodeOfEncode : Prop :=
  ∀ (i : Instr) (rest : List Byte), i.wf = true → decode (encode i ++ rest) = .ok (i, rest)

/-- Every nine bytes are an instruction and encoding it gives them back: no bit pattern is illegal and no bit is lost
(R93, R94, R95). Fewer than nine bytes are no instruction: the model's rejection `truncated` (log 19). -/
def Obligations.EveryNineBytesAreAnInstruction : Prop :=
  ∀ bytes : List Byte,
    (9 ≤ bytes.length → ∃ i, decode bytes = .ok (i, bytes.drop 9) ∧ i.wf = true ∧ encode i = bytes.take 9) ∧
    (bytes.length < 9 → decode bytes = .error .truncated)

/-- Where each byte of the instruction goes, and where each field stands in the 72-bit word (R91). -/
def Obligations.FieldPositions : Prop :=
  ∀ b0 b1 b2 b3 b4 b5 b6 b7 b8 : Byte, ∃ a b j : Addr,
    decode [b0, b1, b2, b3, b4, b5, b6, b7, b8] = .ok (.cpj a b j, []) ∧
    (a.extractLsb' 16 8 = b0 ∧ a.extractLsb' 8 8 = b1 ∧ a.extractLsb' 0 8 = b2) ∧
    (b.extractLsb' 16 8 = b3 ∧ b.extractLsb' 8 8 = b4 ∧ b.extractLsb' 0 8 = b5) ∧
    (j.extractLsb' 16 8 = b6 ∧ j.extractLsb' 8 8 = b7 ∧ j.extractLsb' 0 8 = b8) ∧
    ∃ w : InstrWord, w = b0 ++ b1 ++ b2 ++ b3 ++ b4 ++ b5 ++ b6 ++ b7 ++ b8 ∧
      w.extractLsb' 48 24 = a ∧ w.extractLsb' 24 24 = b ∧ w.extractLsb' 0 24 = j ∧ decodeWord w = .cpj a b j

/-- The instruction at a fetchable address is the three 3-byte field reads, each field the unsigned big-endian value of
its bytes, never extended or scaled, and always a valid address (R92, R93, R112). -/
def Obligations.FetchIsThreeFieldReads : Prop :=
  ∀ (m : Memory) (pc : Addr), pc.toNat ≤ 0xFFFFF7 → ∃ a b j : Addr,
    decode (m.bytesAt pc.toNat 9) = .ok (.cpj a b j, []) ∧
    m.read24 pc.toNat = .ok a ∧ m.read24 (pc.toNat + 3) = .ok b ∧ m.read24 (pc.toNat + 6) = .ok j ∧
    a.toNat = (m.byte pc.toNat).toNat * 65536 + (m.byte (pc.toNat + 1)).toNat * 256 + (m.byte (pc.toNat + 2)).toNat ∧
    b.toNat = (m.byte (pc.toNat + 3)).toNat * 65536 + (m.byte (pc.toNat + 4)).toNat * 256 +
      (m.byte (pc.toNat + 5)).toNat ∧
    j.toNat = (m.byte (pc.toNat + 6)).toNat * 65536 + (m.byte (pc.toNat + 7)).toNat * 256 +
      (m.byte (pc.toNat + 8)).toNat ∧
    a.toNat < Config.memSize ∧ b.toNat < Config.memSize ∧ j.toNat < Config.memSize

/-- The opcode table's numbering of the bits: A is bits 71:48, B is bits 47:24, J is bits 23:0 (opcode_table.json; that
bit 0 is the least significant bit of the last byte is DEDUCED, log 17). -/
def Obligations.TableWordFields : Prop :=
  ∀ w : Nat, w < 2 ^ 72 →
    decodeTableWord 72 w =
      some (.cpj (BitVec.ofNat 24 (w / 2 ^ 48)) (BitVec.ofNat 24 (w / 2 ^ 24 % 2 ^ 24)) (BitVec.ofNat 24 (w % 2 ^ 24)))

/-- The four decode vectors V20a to V20d (95_test_vectors.md section 2.2). -/
def Obligations.DecodeVectors : Prop :=
  decode [0x00, 0x01, 0x09, 0x00, 0x00, 0x00, 0x00, 0x01, 0x00] = .ok (.cpj 0x000109 0x000000 0x000100, []) ∧
  decode [0x00, 0x00, 0x00, 0x00, 0x00, 0x00, 0x00, 0x00, 0x00] = .ok (.cpj 0x000000 0x000000 0x000000, []) ∧
  decode [0xFF, 0xFF, 0xFF, 0xFF, 0xFF, 0xFF, 0xFF, 0xFF, 0xFF] = .ok (.cpj 0xFFFFFF 0xFFFFFF 0xFFFFFF, []) ∧
  decode [0x12, 0x34, 0x56, 0x78, 0x9A, 0xBC, 0xDE, 0xF0, 0x11] = .ok (.cpj 0x123456 0x789ABC 0xDEF011, [])

/-! ### Memory (20_memory.md) -/

/-- `MemRead(addr, 1)` raises `OutOfRange(addr, 1)` above 0xFFFFFF and otherwise returns the byte at `addr` (R57). -/
def Obligations.ByteReadIsRangeChecked : Prop :=
  ∀ (m : Memory) (addr : Nat),
    m.read8 addr = if addr > 0xFFFFFF then .error ⟨addr, 1⟩ else .ok (m.byte addr)

/-- Every accessor raises `OutOfRange(addr, n)` exactly when `addr + n - 1 > 0xFFFFFF` (R54). -/
def Obligations.EveryAccessIsRangeChecked : Prop :=
  ∀ (m : Memory) (addr : Nat) (v : Byte) (w : Half),
    RangeChecked (m.read8 addr) addr 1 ∧ RangeChecked (m.read16 addr) addr 2 ∧ RangeChecked (m.read24 addr) addr 3 ∧
    RangeChecked (m.write8 addr v) addr 1 ∧ RangeChecked (m.write16 addr w) addr 2 ∧
    ∀ len, 0 < len → RangeChecked (m.slice addr len) addr len

/-- 2- and 3-byte reads are unsigned, big-endian sums of their bytes (R56, R58, R59). -/
def Obligations.ReadsAreBigEndian : Prop :=
  ∀ (m : Memory) (addr : Nat),
    (addr + 1 ≤ 0xFFFFFF → ∃ v, m.read16 addr = .ok v ∧
      v.toNat = (m.byte addr).toNat * 256 + (m.byte (addr + 1)).toNat ∧ v.toNat = beValue (m.bytesAt addr 2)) ∧
    (addr + 1 > 0xFFFFFF → m.read16 addr = .error ⟨addr, 2⟩) ∧
    (addr + 2 ≤ 0xFFFFFF → ∃ v, m.read24 addr = .ok v ∧
      v.toNat = (m.byte addr).toNat * 65536 + (m.byte (addr + 1)).toNat * 256 + (m.byte (addr + 2)).toNat ∧
      v.toNat = beValue (m.bytesAt addr 3)) ∧
    (addr + 2 > 0xFFFFFF → m.read24 addr = .error ⟨addr, 3⟩)

/-- `MemWrite(addr, 1, v)` stores the byte and leaves every other byte alone, or raises (R60). -/
def Obligations.ByteWriteStoresOneByte : Prop :=
  ∀ (m : Memory) (addr : Nat) (v : Byte),
    if addr > 0xFFFFFF then m.write8 addr v = .error ⟨addr, 1⟩
    else ∃ m', m.write8 addr v = .ok m' ∧ m'.byte addr = v ∧ ∀ x, x ≠ addr → m'.byte x = m.byte x

/-- `MemWrite(addr, 2, v)` stores `v[15:8]` then `v[7:0]` and nothing else, or raises and writes nothing (R61, R55). -/
def Obligations.HalfWriteStoresTwoBytes : Prop :=
  ∀ (m : Memory) (addr : Nat) (v : Half),
    if addr + 1 > 0xFFFFFF then m.write16 addr v = .error ⟨addr, 2⟩
    else ∃ m', m.write16 addr v = .ok m' ∧ m'.byte addr = v.extractLsb' 8 8 ∧ m'.byte (addr + 1) = v.extractLsb' 0 8 ∧
      ∀ x, x ≠ addr → x ≠ addr + 1 → m'.byte x = m.byte x

/-- The round-trip laws, in 24, 16 and 8 bits (R65). -/
def Obligations.WritesReadBack : Prop :=
  (∀ (m : Memory) (v : Addr) (addr : Nat), addr ≤ 0xFFFFFD → ∃ m1 m2 m3,
    m.write8 addr (v.extractLsb' 16 8) = .ok m1 ∧ m1.write8 (addr + 1) (v.extractLsb' 8 8) = .ok m2 ∧
    m2.write8 (addr + 2) (v.extractLsb' 0 8) = .ok m3 ∧ m3.read24 addr = .ok v) ∧
  (∀ (m : Memory) (v : Half) (addr : Nat), addr ≤ 0xFFFFFE → ∃ m',
    m.write16 addr v = .ok m' ∧ m'.read16 addr = .ok v) ∧
  ∀ (m : Memory) (v : Byte) (addr : Nat), addr ≤ 0xFFFFFF → ∃ m',
    m.write8 addr v = .ok m' ∧ m'.read8 addr = .ok v

/-- A mixed-width access sees plain bytes: single bytes of a 16-bit write, multi-byte reads over single-byte writes,
and the rule's own example (R74). -/
def Obligations.MixedWidthsSeePlainBytes : Prop :=
  (∀ (m : Memory) (addr : Nat) (v : Half), addr + 1 ≤ 0xFFFFFF → ∃ m', m.write16 addr v = .ok m' ∧
    m'.read8 addr = .ok (v.extractLsb' 8 8) ∧ m'.read8 (addr + 1) = .ok (v.extractLsb' 0 8)) ∧
  (∀ (m : Memory) (addr : Nat) (b0 b1 : Byte), addr + 1 ≤ 0xFFFFFF → ∃ m1 m2,
    m.write8 addr b0 = .ok m1 ∧ m1.write8 (addr + 1) b1 = .ok m2 ∧ m2.read16 addr = .ok (b0 ++ b1)) ∧
  (∀ (m : Memory) (addr : Nat) (b0 b1 b2 : Byte), addr + 2 ≤ 0xFFFFFF → ∃ m1 m2 m3,
    m.write8 addr b0 = .ok m1 ∧ m1.write8 (addr + 1) b1 = .ok m2 ∧ m2.write8 (addr + 2) b2 = .ok m3 ∧
    m3.read24 addr = .ok (b0 ++ b1 ++ b2)) ∧
  ∀ m : Memory, ∃ m', m.write16 0x000000 0x1234 = .ok m' ∧
    m'.read8 0x000000 = .ok 0x12 ∧ m'.read8 0x000001 = .ok 0x34 ∧
    m'.read24 0x000000 = .ok ((0x1234 : Half) ++ m.byte 0x000002)

/-- `load(offset, bytes)` copies every byte and touches no other, or raises `LoadSize` and copies nothing (R63). -/
def Obligations.LoadCopiesBytes : Prop :=
  ∀ (m : Memory) (offset : Nat) (bytes : List Byte),
    if offset + bytes.length > 0x1000000 then m.load offset bytes = .error ⟨offset, bytes.length⟩
    else ∃ m', m.load offset bytes = .ok m' ∧
      (∀ (k : Nat) (v : Byte), bytes[k]? = some v → m'.byte (offset + k) = v) ∧
      ∀ x, (x < offset ∨ offset + bytes.length ≤ x) → m'.byte x = m.byte x

/-- `slice(start, len)` returns the bytes in address order, or raises `OutOfRange` (R64). -/
def Obligations.SliceReturnsBytes : Prop :=
  ∀ (m : Memory) (start len : Nat),
    if start + len > 0x1000000 then m.slice start len = .error ⟨start, len⟩
    else ∃ bytes, m.slice start len = .ok bytes ∧ bytes.length = len ∧
      ∀ k, k < len → bytes[k]? = some (m.byte (start + k))

/-! ### The copy-and-jump instruction (40_copy_jump.md) -/

/-- CPJ A, B, J completes in every state, for every A, B and J: afterwards the byte at B is the one that was at A, and
`PC` is J (R111, R118, R119; the order of the accesses is the spec's own decision D4, log 11). -/
def Obligations.CpjCopiesAndJumps : Prop :=
  ∀ (a b j : Addr) (s : State), ∃ t, exec (.cpj a b j) s = .next t ∧
    t.mem.byte b.toNat = s.mem.byte a.toNat ∧ t.pc = j

/-- What CPJ leaves unchanged: every byte of memory except the one at B, and every field of the state but memory and
`PC` (R111: "Nothing else changes"). -/
def Obligations.CpjFrame : Prop :=
  ∀ (a b j : Addr) (s t : State), exec (.cpj a b j) s = .next t →
    (∀ x, x ≠ b.toNat → t.mem.byte x = s.mem.byte x) ∧ SameButMemPc s t

/-- A = B: memory as a whole is unchanged and `PC` becomes J (R115). Canonical memory is an invariant of the model
(StepKeepsInvariant; its form is a list, see INVENTORY.md). -/
def Obligations.CopyOntoItselfOnlyJumps : Prop :=
  ∀ (a j : Addr) (s : State), s.mem.wf → exec (.cpj a a j) s = .next { s with pc := j }

/-- The data read, the data write and the write of `PC` never fault; only the next fetch can, and does exactly when J is
0xFFFFF8 or above (R114). -/
def Obligations.DataAccessesNeverFault : Prop :=
  ∀ (a b j : Addr) (d : Byte) (s : State),
    (∃ v, s.mem.read8 a.toNat = .ok v) ∧ (∃ m, s.mem.write8 b.toNat d = .ok m) ∧
    ∃ t, exec (.cpj a b j) s = .next t ∧ t.pc = j ∧
      ((∃ e, fetchWord t.mem t.pc = .error e) ↔ 0xFFFFF8 ≤ j.toNat)

/-- In a running frame a step is exec of the instruction at `PC`; around it the step only counts the cycle
(`completeCycle`: N, and the frame's end in the step of the 65,536th cycle, log 6) (R111, R132, R133). -/
def Obligations.StepRunsTheDecodedInstruction : Prop :=
  ∀ (s : State) (i : Instr), Running s → s.pc.toNat ≤ 0xFFFFF7 → i.wf = true →
    decode (s.mem.bytesAt s.pc.toNat 9) = .ok (i, []) →
    step s = match exec i s with
      | .next t => .next (completeCycle t)
      | .fault r => .fault r
      | .refused r => .refused r

/-- The fetch fault: at `PC ≤ 0xFFFFF7` the fetch succeeds; above, the step enters FAULTED with memory, `PC` and N
untouched, and reports the error of the first field read that fails (R113, R134; the report stands in the model's list
of replies, log 3; what N holds after a fault is DEDUCED, log 13). -/
def Obligations.FetchFaultEntersFaulted : Prop :=
  ∀ s : State, Running s →
    (s.pc.toNat ≤ 0xFFFFF7 → ∃ w, fetchWord s.mem s.pc = .ok w) ∧
    (0xFFFFF8 ≤ s.pc.toNat →
      step s = .next { s with
        mode := .faulted
        replies := .fatal ⟨if s.pc.toNat ≤ 0xFFFFFA then s.pc.toNat + 6
          else if s.pc.toNat ≤ 0xFFFFFD then s.pc.toNat + 3 else s.pc.toNat, 3⟩ :: s.replies })

/-- A cycle is a total function of memory and `PC`: it yields a next memory and `PC` or the fetch fault, nothing else,
and two running states that agree on memory and `PC` agree on the outcome (R121). -/
def Obligations.CycleIsAFunctionOfMemoryAndPc : Prop :=
  ∀ s s' : State, Running s → Running s' → s.mem = s'.mem → s.pc = s'.pc →
    ∃ t t', step s = .next t ∧ step s' = .next t' ∧ t.mem = t'.mem ∧ t.pc = t'.pc ∧
      (t.mode = .faulted ↔ t'.mode = .faulted) ∧ (t.mode = .faulted ↔ 0xFFFFF8 ≤ s.pc.toNat)

/-- A store into the instruction's own nine bytes, or into PCF, changes nothing about this cycle: the jump goes to the J
fetched before the write (R116 (a), (b), (d); log 11). -/
def Obligations.OwnInstructionWriteUsesOldFields : Prop :=
  ∀ (s : State) (a b j : Addr), Running s → s.pc.toNat ≤ 0xFFFFF7 →
    decode (s.mem.bytesAt s.pc.toNat 9) = .ok (.cpj a b j, []) →
    (s.pc.toNat ≤ b.toNat ∧ b.toNat ≤ s.pc.toNat + 8) ∨ (0x000002 ≤ b.toNat ∧ b.toNat ≤ 0x000004) →
    ∃ t, step s = .next t ∧ t.pc = j ∧ t.mem.byte b.toNat = s.mem.byte a.toNat

/-- A store is seen by the very next fetch: the instruction the next cycle runs is read from memory with the byte just
copied in its place (R71, R116 (c)). That a RESET may come between the two cycles is the model's (log 8). -/
def Obligations.StoreIsSeenByTheNextFetch : Prop :=
  ∀ (s : State) (a b j : Addr), Running s → s.cycles + 1 < Config.cyclesPerFrame → s.pc.toNat ≤ 0xFFFFF7 →
    j.toNat ≤ 0xFFFFF7 → decode (s.mem.bytesAt s.pc.toNat 9) = .ok (.cpj a b j, []) →
    ∃ t i, step s = .next t ∧ t.mode = .run ∧ t.pc = j ∧
      decode ((List.range 9).map (fun k =>
        if j.toNat + k = b.toNat then s.mem.byte a.toNat else s.mem.byte (j.toNat + k))) = .ok (i, []) ∧
      (resetDue t = false → step t = match exec i t with
        | .next u => .next (completeCycle u)
        | .fault r => .fault r
        | .refused r => .refused r)

/-! ### The frame sequencer (41_frame_sequencer.md) -/

/-- Frame start: `PC <- MemRead(0x000002, 3)`, `N <- 0`, `MODE <- RUN`; memory, PCF among it, is not changed and the old
`PC` is discarded (R131, R136). The frame is one that may start: the load did not fail (the model's field `launch`, log 4)
and the host has written KEY for it (the model's field `keyWritten`, which the frame start empties, log 9). -/
def Obligations.FrameStartLoadsPcFromPcf : Prop :=
  ∀ (s : State) (rest : List HostOp), s.mode = .idle → s.requests = .frameTick :: rest → s.launch ≠ .refused →
    s.keyWritten ≠ none →
    ∃ p, s.mem.read24 0x000002 = .ok p ∧
      step s = .next { s with
        pc := p, mode := .run, cycles := 0, launch := .started, keyWritten := none, requests := rest }

/-- A cycle that can be fetched counts one, whatever the instruction does; the 65,536th ends the frame and reports it,
and while the frame runs the host waits (R132, R133, R135). That the frame ends in the step of its last cycle, and that N
then stands at 65,536, is DEDUCED (log 6, log 13). -/
def Obligations.CycleCountsAndFrameEnds : Prop :=
  ∀ s : State, Running s → s.pc.toNat ≤ 0xFFFFF7 → ∃ t, step s = .next t ∧
    t.cycles = s.cycles + 1 ∧ t.requests = s.requests ∧ t.launch = s.launch ∧ t.keyWritten = s.keyWritten ∧
    if s.cycles + 1 = 65536 then t.mode = .idle ∧ t.replies = .frameDone :: s.replies
    else t.mode = .run ∧ t.replies = s.replies

/-- `frame_tick` as a function: if 65,536 applications of `cycle` to memory and PCF do not fault, then one step for the
frame start and 65,536 for the cycles leave exactly their memory and `PC`, MODE idle, and completion reported. The frame
takes no step more and none less (R137, R130 to R133, R135). That `PC` is not written back is the spec's own decision D6
(log 12). The host's requests, the replies, the launch mark and the keyboard write made are the model's own fields (log 2,
log 3, log 4, log 9); no RESET arrives (log 8); N stands at 65,536 afterwards (log 13). -/
def Obligations.FrameTickIsIteratedCycle : Prop :=
  ∀ (s : State) (rest : List HostOp) (p pc' : Addr) (m' : Memory),
    s.mode = .idle → s.requests = .frameTick :: rest → undisturbed rest = true → s.launch ≠ .refused →
    s.keyWritten ≠ none → s.mem.read24 0x000002 = .ok p → cyclesFrom Config.cyclesPerFrame s.mem p = .ok (m', pc') →
    core.run (Config.cyclesPerFrame + 1) s = .next { s with
      mem := m', pc := pc', mode := .idle, cycles := Config.cyclesPerFrame, launch := .started, keyWritten := none,
      requests := rest, replies := .frameDone :: s.replies }

/-- A fault during a frame: if `k` cycles complete and the next one raises `e`, the frame stops there with their effects
kept, `PC` at the instruction that could not be fetched, `k` cycles counted, MODE faulted and `e` reported instead of
completion (R134, the spec's own decision D2). That N keeps `k` after the fault is DEDUCED (log 13). The fields beside
memory, `PC`, MODE and N are the model's (log 2, log 3, log 4, log 8, log 9). -/
def Obligations.FaultStopsTheFrame : Prop :=
  ∀ (s : State) (rest : List HostOp) (p pc' : Addr) (m' : Memory) (k : Nat) (e : OutOfRange),
    s.mode = .idle → s.requests = .frameTick :: rest → undisturbed rest = true → s.launch ≠ .refused →
    s.keyWritten ≠ none → s.mem.read24 0x000002 = .ok p → k < Config.cyclesPerFrame →
    cyclesFrom k s.mem p = .ok (m', pc') → cycle m' pc' = .error e →
    core.run (k + 2) s = .next { s with
      mem := m', pc := pc', mode := .faulted, cycles := k, launch := .started, keyWritten := none,
      requests := rest, replies := .fatal e :: s.replies }

/-- Every requested frame completes or faults, within 65,537 steps (U14; R132, R134; log 6, log 8). Where the outcome is
reported is the model's (log 3), that N stands at 65,536 after a frame is DEDUCED (log 13), and the frame is one that may
start (log 4, log 9). -/
def Obligations.EveryFrameCompletesOrFaults : Prop :=
  ∀ (s : State) (rest : List HostOp),
    s.mode = .idle → s.requests = .frameTick :: rest → undisturbed rest = true → s.launch ≠ .refused →
    s.keyWritten ≠ none →
    ∃ k t, k ≤ Config.cyclesPerFrame + 1 ∧ core.run k s = .next t ∧ t.requests = rest ∧
      ((t.mode = .idle ∧ t.cycles = Config.cyclesPerFrame ∧ t.replies = .frameDone :: s.replies) ∨
       (t.mode = .faulted ∧ ∃ e, t.replies = .fatal e :: s.replies))

/-- Nothing a frame does depends on the `PC` the machine had before it: not on reset's value, not on what the last frame
left (R137, R136, R142). -/
def Obligations.FrameIgnoresTheOldPc : Prop :=
  ∀ (s : State) (rest : List HostOp) (p : Addr) (k : Nat), s.mode = .idle → s.requests = .frameTick :: rest →
    core.run (k + 1) { s with pc := p } = core.run (k + 1) s

/-- One frame period of the host's loop: keyboard write, frame, screen, audio. The frame runs on memory with the mask in
place, and the two pages are those of the memory it leaves (R138, R152, R155, R160, R165). Requests, replies, launch mark
and keyboard write made are the model's fields (log 2, log 3, log 4, log 9); N afterwards is DEDUCED (log 13). -/
def Obligations.FramePeriodRuns : Prop :=
  ∀ (s : State) (mask : Half) (rest : List HostOp) (m1 m' : Memory) (p pc' : Addr),
    s.mode = .idle → s.requests = framePeriod mask ++ rest → s.launch ≠ .refused →
    s.mem.write16 0x000000 mask = .ok m1 → m1.read24 0x000002 = .ok p →
    cyclesFrom Config.cyclesPerFrame m1 p = .ok (m', pc') →
    ∃ screen audio, core.run (Config.cyclesPerFrame + 4) s = .next { s with
        mem := m', pc := pc', mode := .idle, cycles := Config.cyclesPerFrame, launch := .started,
        keyWritten := none, requests := rest, replies := .audio audio :: .screen screen :: .frameDone :: s.replies } ∧
      m'.slice ((m'.byte 0x000005).toNat * 65536) 65536 = .ok screen ∧
      m'.slice ((be16 (m'.byte 0x000006) (m'.byte 0x000007)).toNat * 256) 256 = .ok audio

/-! ### The host operations (42_mmio_interface.md) -/

/-- `LOAD_ROM(bytes)` puts byte `k` of the ROM at address `k` and leaves every other byte alone; lengths 0 and 16,777,216
are both legal (R150). That a load is the first of this launch is the model's field `launch` (log 4); that a keyboard
write made before it is void is the model's (log 9). -/
def Obligations.LoadRomPlacesTheRom : Prop :=
  ∀ (s : State) (rom : List Byte) (rest : List HostOp),
    s.mode = .idle → s.launch = .fresh → s.requests = .loadRom rom :: rest → rom.length ≤ 16777216 →
    ∃ m', step s = .next { s with mem := m', launch := .loaded, keyWritten := none, requests := rest } ∧
      ∀ x, m'.byte x = (rom[x]?).getD (s.mem.byte x)

/-- A ROM that does not fit: LoadSize is reported, memory is unchanged, MODE stays idle, and the launch is refused (R182,
R150): whatever the host has written to KEY, a frame asked for then has no step. RefusedLaunchStaysRefused says that this
lasts until a RESET. That nothing is copied is the spec's own decision D10 (log 20); the report stands in the model's list
of replies (log 3); `launch` is the model's field (log 4), and the refusal by name is the model's form of "no frame may be
started" (log 5). -/
def Obligations.OversizeRomRefusesTheLaunch : Prop :=
  ∀ (s : State) (rom : List Byte) (rest : List HostOp),
    s.mode = .idle → s.launch = .fresh → s.requests = .loadRom rom :: rest → rom.length > 16777216 →
    ∃ t, step s = .next t ∧ t.mem = s.mem ∧ t.mode = .idle ∧ t.replies = .loadSize ⟨0, rom.length⟩ :: s.replies ∧
      t.launch = .refused ∧ t.requests = rest ∧
      ∀ later key, step { t with keyWritten := key, requests := .frameTick :: later } =
        .refused (.notEnabled .frameTick)

/-- LOAD_ROM happens once and before the first frame: otherwise it has no step (R150, R170; the refusal is the model's,
log 5). -/
def Obligations.SecondLoadHasNoStep : Prop :=
  ∀ (s : State) (rom : List Byte) (rest : List HostOp),
    s.mode = .idle → s.launch ≠ .fresh → s.requests = .loadRom rom :: rest →
    step s = .refused (.notEnabled (.loadRom rom))

/-- `KEY_WRITE(mask)`: `M[0] <- mask[15:8]`, `M[1] <- mask[7:0]`, nothing else changes, and KEY reads back as the mask,
for every mask (R152). That the next frame has its keyboard write is the model's field `keyWritten` (log 9). -/
def Obligations.KeyWriteSetsKey : Prop :=
  ∀ (s : State) (mask : Half) (rest : List HostOp), s.mode = .idle → s.requests = .keyWrite mask :: rest →
    ∃ m', step s = .next { s with mem := m', keyWritten := some mask, requests := rest } ∧
      m'.byte 0x000000 = mask.extractLsb' 8 8 ∧ m'.byte 0x000001 = mask.extractLsb' 0 8 ∧
      (∀ x, 1 < x → m'.byte x = s.mem.byte x) ∧ m'.read16 0x000000 = .ok mask

/-- Where the program sees key `i` after a KEY_WRITE of the keys held: keys 0 to 7 are bits 0 to 7 of the byte at 1, keys
8 to 15 are bits 0 to 7 of the byte at 0, and the bit is 1 exactly when the key is held (R153, R27; the bit numbering is
the spec's own reading D7, log 21). -/
def Obligations.HeldKeysAreSeenInKey : Prop :=
  ∀ (s : State) (held : List (Fin Config.keyCount)) (rest : List HostOp) (i : Fin Config.keyCount),
    s.mode = .idle → s.requests = .keyWrite (keyMask held) :: rest →
    ∃ t, step s = .next t ∧
      (if i.val < 8 then (t.mem.byte 0x000001).getLsbD i.val else (t.mem.byte 0x000000).getLsbD (i.val - 8)) =
        decide (i ∈ held)

/-- `SCREEN_SAMPLE` returns the 65,536 bytes whose top address byte is SCR, in address order, always inside memory, and
changes nothing (R155). The page is returned in the model's list of replies (log 3). -/
def Obligations.ScreenSampleReturnsThePage : Prop :=
  ∀ (s : State) (rest : List HostOp), s.mode = .idle → s.requests = .screenSample :: rest →
    ∃ bytes, step s = .next { s with requests := rest, replies := .screen bytes :: s.replies } ∧
      bytes.length = 65536 ∧
      ∀ k : Half, bytes[k.toNat]? = some (s.mem.byte (s.mem.byte 0x000005 ++ k).toNat) ∧
        (s.mem.byte 0x000005 ++ k).toNat = (s.mem.byte 0x000005).toNat * 65536 + k.toNat ∧
        (s.mem.byte 0x000005 ++ k).toNat ≤ 0xFFFFFF

/-- `AUDIO_SAMPLE` returns the 256 bytes whose top two address bytes are AUD, in address order, always inside memory,
and changes nothing (R160). The page is returned in the model's list of replies (log 3). -/
def Obligations.AudioSampleReturnsThePage : Prop :=
  ∀ (s : State) (rest : List HostOp), s.mode = .idle → s.requests = .audioSample :: rest →
    ∃ bytes sel, step s = .next { s with requests := rest, replies := .audio bytes :: s.replies } ∧
      s.mem.read16 0x000006 = .ok sel ∧ bytes.length = 256 ∧
      ∀ k : Byte, bytes[k.toNat]? = some (s.mem.byte (sel ++ k).toNat) ∧
        (sel ++ k).toNat = sel.toNat * 256 + k.toNat ∧ (sel ++ k).toNat ≤ 0xFFFFFF

/-- `DUMP` returns all 2^24 bytes of memory in address order and changes nothing (R168). They are returned in the model's
list of replies (log 3). -/
def Obligations.DumpReturnsAllOfMemory : Prop :=
  ∀ (s : State) (rest : List HostOp), s.mode = .idle → s.requests = .dump :: rest →
    ∃ bytes, step s = .next { s with requests := rest, replies := .dump bytes :: s.replies } ∧
      bytes.length = 16777216 ∧ ∀ a : Addr, bytes[a.toNat]? = some (s.mem.byte a.toNat)

/-- A dump loaded as a ROM into a fresh machine restores memory exactly (R151). The fields beside
memory are the model's (log 2, log 3, log 4, log 9). -/
def Obligations.DumpReloadsAsARom : Prop :=
  ∀ (s t : State) (bytes : List Byte) (rest later : List HostOp),
    s.mem.wf → s.mode = .idle → s.requests = .dump :: rest →
    step s = .next { s with requests := rest, replies := .dump bytes :: s.replies } →
    t.mem.wf → t.mode = .idle → t.launch = .fresh → t.requests = .loadRom bytes :: later →
    step t = .next { t with mem := s.mem, launch := .loaded, keyWritten := none, requests := later }

/-- The palette formula: exact, no component wraps, each is one of the six values, and 216 and above are black (R158). -/
def Obligations.PaletteIsTheSixCube : Prop :=
  ∀ idx : Byte,
    (idx.toNat ≤ 215 → (palette idx).r.toNat = idx.toNat / 36 * 0x33 ∧
      (palette idx).g.toNat = idx.toNat / 6 % 6 * 0x33 ∧ (palette idx).b.toNat = idx.toNat % 6 * 0x33) ∧
    (216 ≤ idx.toNat → palette idx = ⟨0, 0, 0⟩) ∧
    (∀ c ∈ [(palette idx).r, (palette idx).g, (palette idx).b], c ∈ [0x00#8, 0x33#8, 0x66#8, 0x99#8, 0xCC#8, 0xFF#8])

/-- The signed reading of what the sink is fed: one sample for each byte, its value `v` up to 127 and `v - 256` from 128 on
(R163). That the samples stand in address order is the spec's own decision D22 (R161, log 21). -/
def Obligations.SamplesAreTwosComplement : Prop :=
  ∀ (page : List Byte) (samples : List Int), enqueued page = some samples →
    samples.length = page.length ∧
    ∀ (k : Nat) (v : Byte), page[k]? = some v →
      samples[k]? = some (if v.toNat ≤ 127 then (v.toNat : Int) else (v.toNat : Int) - 256)

/-- Silence: the sink is fed nothing exactly when every one of the sampled bytes is 0x00 (R164). -/
def Obligations.SilenceIsNotEnqueued : Prop :=
  ∀ page : List Byte, enqueued page = none ↔ ∀ (k : Nat) (v : Byte), page[k]? = some v → v = 0x00#8

/-! ### Faults, reset, and the machine as a whole -/

/-- FAULTED is absorbing: with nothing asked for the step is the fault; every operation but RESET is refused; only a
RESET is a next state, and it leaves FAULTED (R186, R141, R170; that the two stops carry these names is the model's,
log 5). -/
def Obligations.FaultedIsAbsorbing : Prop :=
  ∀ s : State, s.mode = .faulted →
    (s.requests = [] → step s = .fault .faulted) ∧
    (∀ op rest, s.requests = op :: rest → (∀ k, op ≠ .reset k) → step s = .refused (.notEnabled op)) ∧
    (∀ t, step s = .next t → (∃ k rest, s.requests = .reset k :: rest) ∧ t.mode = .idle)

/-- Between frames, with nothing asked for, the engine executes nothing and all state survives (R195); that such a step is a
next state equal to the old one is DEDUCED (log 7). -/
def Obligations.IdleCoreWaits : Prop :=
  ∀ s : State, s.mode = .idle → s.requests = [] → step s = .next s

/-- `RESET`, in every mode, FAULTED and RUN among them: memory all zero, MODE idle, N 0 (R210). That it may come in any
mode is the spec's own decision D24 (R212). The statement says nothing of `PC`, which the spec leaves unspecified. The
model's are: the launch fresh again (log 4), no keyboard write made (log 9), the replies and the later requests kept
(log 3, log 8), and when within a frame a RESET is taken (log 8). -/
def Obligations.ResetWorksInEveryMode : Prop :=
  ∀ (s : State) (k : Nat) (rest : List HostOp), s.requests = .reset k :: rest → (s.mode = .run → k ≤ s.cycles) →
    ∃ t, step s = .next t ∧ (∀ x, t.mem.byte x = 0x00#8) ∧ t.mode = .idle ∧ t.cycles = 0 ∧ t.launch = .fresh ∧
      t.keyWritten = none ∧ t.requests = rest ∧ t.replies = s.replies

/-- The values the spec gives for reset: every byte of memory, KEY, PCF, SCR and AUD zero, MODE idle, N 0 (R35). -/
def Obligations.ResetValues : Prop :=
  (∀ x, State.reset.mem.byte x = 0x00#8) ∧
  State.reset.mem.read16 0x000000 = .ok 0x0000#16 ∧ State.reset.mem.read24 0x000002 = .ok 0x000000#24 ∧
  State.reset.mem.read8 0x000005 = .ok 0x00#8 ∧ State.reset.mem.read16 0x000006 = .ok 0x0000#16 ∧
  State.reset.mode = .idle ∧ State.reset.cycles = 0

/-- The invariant RunInvariant holds at reset: memory canonical, N at most 65,536, neither RUN nor FAULTED (R35). -/
def Obligations.ResetMeetsInvariant : Prop := RunInvariant State.reset

/-- Every step keeps the invariant: memory canonical, N at most 65,536, a cycle left while a frame runs, FAULTED only with
a fetch that cannot be made and its error reported, and a keyboard write made for the next frame standing in KEY (R32, R50,
R132, R134, R152, R184; the launch mark, the report and the keyboard write made are the model's fields, log 3, log 4,
log 9). -/
def Obligations.StepKeepsInvariant : Prop :=
  ∀ s t : State, RunInvariant s → step s = .next t → RunInvariant t

/-- The only writers of memory are reset, the ROM load, the host's keyboard write and the write step of a cycle, and each
writes only where its rule says (R51). When within a frame a RESET is taken is the model's (`resetDue`, log 8). -/
def Obligations.OnlyFourWritersOfMemory : Prop :=
  ∀ (s t : State) (x : Nat), step s = .next t → t.mem.byte x ≠ s.mem.byte x →
    (resetDue s = true ∧ t.mem.byte x = 0x00#8) ∨
    (s.mode = .idle ∧ ∃ rom rest, s.requests = .loadRom rom :: rest ∧ rom[x]? = some (t.mem.byte x)) ∨
    (s.mode = .idle ∧ ∃ mask rest, s.requests = .keyWrite mask :: rest ∧ x ≤ 0x000001) ∨
    (s.mode = .run ∧ ∃ a b j, decode (s.mem.bytesAt s.pc.toNat 9) = .ok (.cpj a b j, []) ∧
      x = b.toNat ∧ t.mem.byte x = s.mem.byte a.toNat)

/-- Where `PC` comes from: after a step it is the field J of the instruction just executed, or PCF at a frame start, or
(after a RESET, taken when it is due, log 8) unspecified, where the statement says nothing of it (log 1); in every other
step it is unchanged (R21, R22, R131). -/
def Obligations.OnlyFrameStartReloadsPc : Prop :=
  ∀ s t : State, step s = .next t → t.pc ≠ s.pc →
    resetDue s = true ∨
    (s.mode = .idle ∧ (∃ rest, s.requests = .frameTick :: rest) ∧ s.mem.read24 0x000002 = .ok t.pc) ∨
    (s.mode = .run ∧ ∃ a b, decode (s.mem.bytesAt s.pc.toNat 9) = .ok (.cpj a b t.pc, []))

/-- Only the fetch of an instruction at 0xFFFFF8 or above enters FAULTED, and it is precise: memory and `PC` are as they
were (R181, R184, the spec's own decision D2), and the error is reported. What N holds after a fault is DEDUCED (log 13):
the model leaves it as it was. That the report stands in the list of replies is the model's (log 3). -/
def Obligations.OnlyTheFetchFaults : Prop :=
  ∀ s t : State, step s = .next t → s.mode ≠ .faulted → t.mode = .faulted →
    s.mode = .run ∧ 0xFFFFF8 ≤ s.pc.toNat ∧ t.mem = s.mem ∧ t.pc = s.pc ∧ t.cycles = s.cycles ∧
    ∃ addr, t.replies = .fatal ⟨addr, 3⟩ :: s.replies ∧ addr + 3 > 0x1000000

/-- Where a step stops: with a fault only in FAULTED with nothing asked for; refused only an operation outside its
moment. In a running frame a step always answers a next state (R121, R170, R186, U11; the names are the model's, log 5, log 9). -/
def Obligations.StepStopsOnlyOutsideTheRules : Prop :=
  ∀ s : State,
    (∀ f, step s = .fault f → s.mode = .faulted ∧ s.requests = []) ∧
    (∀ r, step s = .refused r → ∃ op rest, s.requests = op :: rest ∧ r = .notEnabled op ∧
      (s.mode = .faulted ∨ (s.mode = .idle ∧
        (((∃ rom, op = .loadRom rom) ∧ s.launch ≠ .fresh) ∨
          (op = .frameTick ∧ (s.launch = .refused ∨ s.keyWritten = none)))))) ∧
    (s.mode = .run → ∃ t, step s = .next t)

/-- Placing a word with `withFetchWord` makes the very next step run the instruction it decodes to, from any state
(log 18). -/
def Obligations.PlacedWordIsRunNext : Prop :=
  ∀ (s : State) (nbits w : Nat) (i : Instr), decodeTableWord nbits w = some i →
    step (s.withFetchWord nbits w) = match exec i (s.withFetchWord nbits w) with
      | .next t => .next (completeCycle t)
      | .fault r => .fault r
      | .refused r => .refused r

/-! ### The order the host keeps (41_frame_sequencer.md R138, 42_mmio_interface.md R171) -/

/-- A frame asked for with no KEY_WRITE made for it has no step, whatever else holds (R138, R152, R171, R217; ruling U11;
that it is refused, and the field, are the model's, log 5, log 9). -/
def Obligations.FrameNeedsAKeyWrite : Prop :=
  ∀ (s : State) (rest : List HostOp), s.mode = .idle → s.requests = .frameTick :: rest → s.keyWritten = none →
    step s = .refused (.notEnabled .frameTick)

/-- At the first cycle of every frame KEY is the host's mask, whatever the program or the ROM had stored there: a frame
starts only with a KEY_WRITE made for it, KEY then reads as that mask, and the write is used up (R152, R138, R211, log 9). -/
def Obligations.KeyIsTheMaskAtFrameStart : Prop :=
  ∀ s t : State, RunInvariant s → s.mode ≠ .run → step s = .next t → t.mode = .run →
    ∃ mask, s.keyWritten = some mask ∧ t.mem.read16 0x000000 = .ok mask ∧ t.cycles = 0 ∧ t.keyWritten = none

/-- Only a KEY_WRITE of that mask counts as the keyboard write of the next frame, and once made it stands only as long as
nothing but reading happens: memory and MODE are as they were (R138, R152, R170, log 9). In states that meet the
invariant, which StepKeepsInvariant keeps. -/
def Obligations.OnlyAKeyWriteReadiesAFrame : Prop :=
  ∀ (s t : State) (mask : Half), RunInvariant s → step s = .next t → t.keyWritten = some mask →
    (s.mode = .idle ∧ ∃ rest, s.requests = .keyWrite mask :: rest) ∨
    (s.keyWritten = some mask ∧ t.mem = s.mem ∧ t.mode = s.mode)

/-- After a load that failed no frame is started until a RESET: every other step keeps the launch refused, and none starts
a frame (R182; `launch` is the model's field, log 4). -/
def Obligations.RefusedLaunchStaysRefused : Prop :=
  ∀ s t : State, s.launch = .refused → resetDue s = false → step s = .next t →
    t.launch = .refused ∧ (s.mode ≠ .run → t.mode ≠ .run)
end

