-- ==== Sys2Proof/Laws/Decode.lean ====
section
/-! SUPPORT. Small lemmas about byte order, decoding and encoding. -/

namespace Sys2Proof.Machine

/-- Concatenation as a sum: the low part is below its own width (R6). -/
theorem append_toNat {n k : Nat} (x : BitVec n) (y : BitVec k) : (x ++ y).toNat = x.toNat * 2 ^ k + y.toNat := by
  rw [BitVec.toNat_append, Nat.shiftLeft_eq, Nat.mul_comm x.toNat, Nat.two_pow_add_eq_or_of_lt y.isLt]

theorem be16_toNat (b0 b1 : Byte) : (be16 b0 b1).toNat = b0.toNat * 256 + b1.toNat :=
  append_toNat b0 b1

theorem be24_toNat (b0 b1 b2 : Byte) :
    (be24 b0 b1 b2).toNat = b0.toNat * 65536 + b1.toNat * 256 + b2.toNat := by
  have h : (be24 b0 b1 b2).toNat = (be16 b0 b1).toNat * 256 + b2.toNat := append_toNat (b0 ++ b1) b2
  rw [h, be16_toNat]
  omega

@[simp] theorem fieldA_be72 (a b j : Addr) : fieldA (be72 a b j) = a := by
  ext i hi
  simp only [fieldA, be72, BitVec.getElem_extractLsb', BitVec.getLsbD_append]
  rw [if_neg (by omega), if_neg (by omega), ← BitVec.getLsbD_eq_getElem]
  congr 1
  omega

@[simp] theorem fieldB_be72 (a b j : Addr) : fieldB (be72 a b j) = b := by
  ext i hi
  simp only [fieldB, be72, BitVec.getElem_extractLsb', BitVec.getLsbD_append]
  rw [if_neg (by omega), if_pos (by omega), ← BitVec.getLsbD_eq_getElem]
  congr 1
  omega

@[simp] theorem fieldJ_be72 (a b j : Addr) : fieldJ (be72 a b j) = j := by
  ext i hi
  simp only [fieldJ, be72, BitVec.getElem_extractLsb', BitVec.getLsbD_append]
  rw [if_pos (by omega), ← BitVec.getLsbD_eq_getElem]
  congr 1
  omega

theorem be72_fields (w : InstrWord) : be72 (fieldA w) (fieldB w) (fieldJ w) = w := by
  refine BitVec.eq_of_getLsbD_eq fun i hi => ?_
  simp only [be72, fieldA, fieldB, fieldJ, BitVec.getLsbD_append, BitVec.getLsbD_extractLsb']
  repeat' split
  all_goals
    rw [decide_eq_true (by omega), Bool.true_and]
    congr 1
    omega

theorem decodeWord_be72 (a b j : Addr) : decodeWord (be72 a b j) = .cpj a b j := by
  simp [decodeWord]

/-- The bytes of a 24-bit value, assembled again, are the value (R65 (a)). -/
theorem be24_split (v : Addr) : be24 (v.extractLsb' 16 8) (v.extractLsb' 8 8) (v.extractLsb' 0 8) = v := by
  refine BitVec.eq_of_getLsbD_eq fun i hi => ?_
  simp only [be24, BitVec.getLsbD_append, BitVec.getLsbD_extractLsb']
  repeat' split
  all_goals
    rw [decide_eq_true (by omega), Bool.true_and]
    congr 1
    omega

/-- Splitting an assembled value gives its bytes back. -/
theorem addrBytes_be24 (b0 b1 b2 : Byte) : addrBytes (be24 b0 b1 b2) = [b0, b1, b2] := by
  simp only [addrBytes, List.cons.injEq, and_true]
  refine ⟨?_, ?_, ?_⟩ <;>
  · ext i hi
    simp only [be24, BitVec.getElem_extractLsb', BitVec.getLsbD_append]
    repeat' split
    all_goals first | omega | (rw [← BitVec.getLsbD_eq_getElem]; congr 1; omega)

theorem be16_split (v : Half) : be16 (hiByte v) (loByte v) = v := by
  refine BitVec.eq_of_getLsbD_eq fun i hi => ?_
  simp only [be16, hiByte, loByte, BitVec.getLsbD_append, BitVec.getLsbD_extractLsb']
  repeat' split
  all_goals
    rw [decide_eq_true (by omega), Bool.true_and]
    congr 1
    omega

@[simp] theorem hiByte_be16 (b0 b1 : Byte) : hiByte (be16 b0 b1) = b0 := by
  ext i hi
  simp only [hiByte, be16, BitVec.getElem_extractLsb', BitVec.getLsbD_append]
  rw [if_neg (by omega), ← BitVec.getLsbD_eq_getElem]
  congr 1
  omega

@[simp] theorem loByte_be16 (b0 b1 : Byte) : loByte (be16 b0 b1) = b1 := by
  ext i hi
  simp only [loByte, be16, BitVec.getElem_extractLsb', BitVec.getLsbD_append]
  rw [if_pos (by omega), ← BitVec.getLsbD_eq_getElem]
  congr 1
  omega

/-- A byte sequence that decodes has nine bytes at least, and they are the instruction's own. -/
theorem decode_cases {bytes rest : List Byte} {i : Instr} (h : decode bytes = .ok (i, rest)) :
    ∃ b0 b1 b2 b3 b4 b5 b6 b7 b8,
      bytes = b0 :: b1 :: b2 :: b3 :: b4 :: b5 :: b6 :: b7 :: b8 :: rest ∧
      i = .cpj (be24 b0 b1 b2) (be24 b3 b4 b5) (be24 b6 b7 b8) := by
  unfold decode at h
  split at h
  · cases h
    exact ⟨_, _, _, _, _, _, _, _, _, rfl, decodeWord_be72 _ _ _⟩
  · cases h

end Sys2Proof.Machine
end

