-- ==== Sys2Proof/Laws/Memory.lean ====
section
/-! SUPPORT. The laws of memory: read after write, the canonical form, extensionality, and one lemma for each accessor. -/

namespace Sys2Proof.Machine

/-! ### Raw bytes -/

theorem Memory.byte_clear_same (m : Memory) (a : Nat) : (m.clear a).byte a = Memory.unlisted := by
  induction m with
  | nil => rfl
  | cons c rest ih =>
    by_cases h : c.1 = a
    · simpa [Memory.clear, h] using ih
    · simpa [Memory.clear, Memory.byte, h] using ih

theorem Memory.byte_clear_ne (m : Memory) {a x : Nat} (hx : x ≠ a) : (m.clear a).byte x = m.byte x := by
  induction m with
  | nil => rfl
  | cons c rest ih =>
    by_cases h : c.1 = a
    · have hcx : c.1 ≠ x := fun e => hx (e.symm.trans h)
      simpa [Memory.clear, Memory.byte, h, hcx, Ne.symm hx] using ih
    · have hc : Memory.clear (c :: rest) a = c :: Memory.clear rest a := by simp [Memory.clear, h]
      rw [hc, Memory.byte, ih, Memory.byte]

theorem Memory.byte_put_same (m : Memory) (a : Nat) (v : Byte) : (m.put a v).byte a = v := by
  induction m with
  | nil => simp [Memory.put, Memory.byte]
  | cons c rest ih =>
    simp only [Memory.put]
    split
    · simp [Memory.byte]
    · split
      · simp [Memory.byte]
      · rename_i h
        simp [Memory.byte, Ne.symm h, ih]

theorem Memory.byte_put_ne (m : Memory) {a x : Nat} (v : Byte) (hx : x ≠ a) : (m.put a v).byte x = m.byte x := by
  induction m with
  | nil => simp [Memory.put, Memory.byte, Ne.symm hx]
  | cons c rest ih =>
    simp only [Memory.put]
    split
    · simp [Memory.byte, Ne.symm hx]
    · split
      · rename_i h
        simp [Memory.byte, ← h, Ne.symm hx]
      · simp [Memory.byte, ih]

/-- A read after a write to the same place gives the value written. -/
@[simp] theorem Memory.byte_setByte_same (m : Memory) (a : Nat) (v : Byte) : (m.setByte a v).byte a = v := by
  unfold Memory.setByte
  split
  · rename_i h
    rw [h, Memory.byte_clear_same]
  · exact Memory.byte_put_same m a v

/-- A write leaves every other place alone. -/
theorem Memory.byte_setByte_ne (m : Memory) {a x : Nat} (v : Byte) (hx : x ≠ a) :
    (m.setByte a v).byte x = m.byte x := by
  unfold Memory.setByte
  split
  · exact Memory.byte_clear_ne m hx
  · exact Memory.byte_put_ne m v hx

theorem Memory.byte_setByte (m : Memory) (a x : Nat) (v : Byte) :
    (m.setByte a v).byte x = if x = a then v else m.byte x := by
  split
  · rename_i h
    rw [h, Memory.byte_setByte_same]
  · rename_i h
    exact Memory.byte_setByte_ne m v h

/-- What a run of writes leaves: the new bytes in their places, every other byte as before. -/
theorem Memory.byte_setBytes (bytes : List Byte) (m : Memory) (a x : Nat) :
    (m.setBytes a bytes).byte x = if a ≤ x then (bytes[x - a]?).getD (m.byte x) else m.byte x := by
  induction bytes generalizing m a with
  | nil => simp [Memory.setBytes]
  | cons b bs ih =>
    rw [Memory.setBytes, ih, Memory.byte_setByte]
    rcases Nat.lt_trichotomy x a with h | h | h
    · rw [if_neg (by omega), if_neg (by omega), if_neg (by omega)]
    · subst h
      simp
    · obtain ⟨k, hk⟩ : ∃ k, x - a = k + 1 := ⟨x - a - 1, by omega⟩
      have hk' : x - (a + 1) = k := by omega
      rw [if_pos (by omega), if_neg (by omega), if_pos (by omega), hk, hk']
      simp

@[simp] theorem Memory.length_bytesAt (m : Memory) (a n : Nat) : (m.bytesAt a n).length = n := by
  induction n generalizing a with
  | zero => rfl
  | succ n ih => simp [Memory.bytesAt, ih]

theorem Memory.getElem?_bytesAt (m : Memory) {a n k : Nat} (hk : k < n) :
    (m.bytesAt a n)[k]? = some (m.byte (a + k)) := by
  induction n generalizing a k with
  | zero => omega
  | succ n ih =>
    cases k with
    | zero => simp [Memory.bytesAt]
    | succ k =>
      simp only [Memory.bytesAt, List.getElem?_cons_succ]
      rw [ih (by omega)]
      congr 2
      omega

/-! ### The canonical form -/

theorem Memory.wf_nil : Memory.wf [] := ⟨List.Pairwise.nil, fun _ h => nomatch h⟩

theorem Memory.wf_clear {m : Memory} (h : m.wf) (a : Nat) : (m.clear a).wf :=
  ⟨h.1.filter _, fun c hc => h.2 c (List.mem_of_mem_filter hc)⟩

theorem Memory.mem_put {m : Memory} {a : Nat} {v : Byte} {c : Host.Cell} (h : c ∈ m.put a v) :
    c = (a, v) ∨ c ∈ m := by
  induction m with
  | nil => simpa [Memory.put] using h
  | cons d rest ih =>
    simp only [Memory.put] at h
    split at h
    · simpa using h
    · split at h
      · rcases List.mem_cons.1 h with h | h
        · exact .inl h
        · exact .inr (List.mem_cons_of_mem _ h)
      · rcases List.mem_cons.1 h with h | h
        · exact .inr (h ▸ List.mem_cons_self)
        · exact (ih h).imp_right (List.mem_cons_of_mem _)

theorem Memory.pairwise_put {m : Memory} (h : m.Pairwise (fun c d => c.1 < d.1)) (a : Nat) (v : Byte) :
    (m.put a v).Pairwise (fun c d => c.1 < d.1) := by
  induction m with
  | nil => simp [Memory.put]
  | cons c rest ih =>
    obtain ⟨hc, hrest⟩ := List.pairwise_cons.1 h
    simp only [Memory.put]
    split
    · rename_i hlt
      refine List.pairwise_cons.2 ⟨fun d hd => ?_, h⟩
      rcases List.mem_cons.1 hd with hd | hd
      · exact hd ▸ hlt
      · exact Nat.lt_trans hlt (hc d hd)
    · split
      · rename_i heq
        exact List.pairwise_cons.2 ⟨fun d hd => heq ▸ hc d hd, hrest⟩
      · refine List.pairwise_cons.2 ⟨fun d hd => ?_, ih hrest⟩
        rcases Memory.mem_put hd with hd | hd
        · subst hd
          show c.1 < a
          omega
        · exact hc d hd

/-- A write to a valid address keeps the canonical form. -/
theorem Memory.wf_setByte {m : Memory} (h : m.wf) {a : Nat} (ha : a < Config.memSize) (v : Byte) :
    (m.setByte a v).wf := by
  unfold Memory.setByte
  split
  · exact Memory.wf_clear h a
  · rename_i hv
    refine ⟨Memory.pairwise_put h.1 a v, fun c hc => ?_⟩
    rcases Memory.mem_put hc with hc | hc
    · subst hc
      exact ⟨ha, hv⟩
    · exact h.2 c hc

theorem Memory.wf_setBytes (bytes : List Byte) {m : Memory} (h : m.wf) {a : Nat}
    (ha : a + bytes.length ≤ Config.memSize) : (m.setBytes a bytes).wf := by
  induction bytes generalizing m a with
  | nil => exact h
  | cons b bs ih =>
    simp only [List.length_cons] at ha
    exact ih (Memory.wf_setByte h (by omega) b) (by omega)

theorem Memory.byte_of_forall_ne {m : Memory} {a : Nat} (h : ∀ c ∈ m, c.1 ≠ a) : m.byte a = Memory.unlisted := by
  induction m with
  | nil => rfl
  | cons c rest ih =>
    rw [Memory.byte, if_neg (h c List.mem_cons_self)]
    exact ih fun d hd => h d (List.mem_cons_of_mem _ hd)

theorem Memory.wf_tail {c : Host.Cell} {m : Memory} (h : Memory.wf (c :: m)) : Memory.wf m :=
  ⟨(List.pairwise_cons.1 h.1).2, fun d hd => h.2 d (List.mem_cons_of_mem _ hd)⟩

/-- Below its first cell a canonical memory lists nothing. -/
theorem Memory.byte_lt_head {c : Host.Cell} {m : Memory} (h : Memory.wf (c :: m)) {a : Nat} (ha : a < c.1) :
    Memory.byte (c :: m) a = Memory.unlisted := by
  refine Memory.byte_of_forall_ne fun d hd => ?_
  rcases List.mem_cons.1 hd with hd | hd
  · subst hd
    omega
  · have := (List.pairwise_cons.1 h.1).1 d hd
    omega

theorem Memory.byte_tail_head {c : Host.Cell} {m : Memory} (h : Memory.wf (c :: m)) :
    Memory.byte m c.1 = Memory.unlisted :=
  Memory.byte_of_forall_ne fun d hd => by
    have := (List.pairwise_cons.1 h.1).1 d hd
    omega

/-- Equal memories are equal data: two canonical memories that read alike everywhere are the same list. -/
theorem Memory.ext_of_wf {m n : Memory} (hm : m.wf) (hn : n.wf) (h : ∀ a, m.byte a = n.byte a) : m = n := by
  induction m generalizing n with
  | nil =>
    cases n with
    | nil => rfl
    | cons d ds =>
      have hd := h d.1
      simp only [Memory.byte, if_true] at hd
      exact absurd hd.symm (hn.2 d List.mem_cons_self).2
  | cons c cs ih =>
    cases n with
    | nil =>
      have hc := h c.1
      simp only [Memory.byte, if_true] at hc
      exact absurd hc (hm.2 c List.mem_cons_self).2
    | cons d ds =>
      have hne_c := (hm.2 c List.mem_cons_self).2
      have hne_d := (hn.2 d List.mem_cons_self).2
      have haddr : c.1 = d.1 := by
        rcases Nat.lt_trichotomy c.1 d.1 with hlt | heq | hgt
        · have hc := h c.1
          rw [Memory.byte_lt_head hn hlt] at hc
          simp only [Memory.byte, if_true] at hc
          exact absurd hc hne_c
        · exact heq
        · have hd := h d.1
          rw [Memory.byte_lt_head hm hgt] at hd
          simp only [Memory.byte, if_true] at hd
          exact absurd hd.symm hne_d
      have hval : c.2 = d.2 := by simpa [Memory.byte, haddr] using h c.1
      have hcd : c = d := Prod.ext haddr hval
      subst hcd
      congr 1
      refine ih (Memory.wf_tail hm) (Memory.wf_tail hn) fun a => ?_
      by_cases ha : c.1 = a
      · subst ha
        rw [Memory.byte_tail_head hm, Memory.byte_tail_head hn]
      · simpa [Memory.byte, ha] using h a

/-- Writing to a byte what it holds changes nothing. -/
theorem Memory.setByte_byte {m : Memory} (h : m.wf) {a : Nat} (ha : a < Config.memSize) :
    m.setByte a (m.byte a) = m := by
  refine Memory.ext_of_wf (Memory.wf_setByte h ha _) h fun x => ?_
  rw [Memory.byte_setByte]
  split
  · rename_i hx
    rw [hx]
  · rfl

/-! ### The accessors -/

@[simp] theorem inRange_iff (addr n : Nat) : inRange addr n = true ↔ addr + n ≤ Config.memSize := by
  simp [inRange]

theorem Memory.read8_ok (m : Memory) {addr : Nat} (h : addr + 1 ≤ Config.memSize) :
    m.read8 addr = .ok (m.byte addr) := if_pos (by simpa using h)

theorem Memory.read16_ok (m : Memory) {addr : Nat} (h : addr + 2 ≤ Config.memSize) :
    m.read16 addr = .ok (be16 (m.byte addr) (m.byte (addr + 1))) := if_pos (by simpa using h)

theorem Memory.read24_ok (m : Memory) {addr : Nat} (h : addr + 3 ≤ Config.memSize) :
    m.read24 addr = .ok (be24 (m.byte addr) (m.byte (addr + 1)) (m.byte (addr + 2))) :=
  if_pos (by simpa using h)

theorem Memory.read24_error (m : Memory) {addr : Nat} (h : ¬ addr + 3 ≤ Config.memSize) :
    m.read24 addr = .error ⟨addr, 3⟩ := if_neg (by simpa using h)

theorem Memory.write8_ok (m : Memory) {addr : Nat} (h : addr + 1 ≤ Config.memSize) (v : Byte) :
    m.write8 addr v = .ok (m.setByte addr v) := if_pos (by simpa using h)

theorem Memory.write16_ok (m : Memory) {addr : Nat} (h : addr + 2 ≤ Config.memSize) (v : Half) :
    m.write16 addr v = .ok ((m.setByte addr (hiByte v)).setByte (addr + 1) (loByte v)) :=
  if_pos (by simpa using h)

theorem Memory.load_ok (m : Memory) {offset : Nat} {bytes : List Byte}
    (h : offset + bytes.length ≤ Config.memSize) : m.load offset bytes = .ok (m.setBytes offset bytes) :=
  if_pos (by simpa using h)

theorem Memory.load_error (m : Memory) {offset : Nat} {bytes : List Byte}
    (h : ¬ offset + bytes.length ≤ Config.memSize) : m.load offset bytes = .error ⟨offset, bytes.length⟩ :=
  if_neg (by simpa using h)

theorem Memory.slice_ok (m : Memory) {start len : Nat} (h : start + len ≤ Config.memSize) :
    m.slice start len = .ok (m.bytesAt start len) := if_pos (by simpa using h)

/-- Every accessor that writes keeps the canonical form. -/
theorem Memory.write8_wf {m m' : Memory} (h : m.wf) {addr : Nat} {v : Byte} (hw : m.write8 addr v = .ok m') :
    m'.wf := by
  unfold Memory.write8 at hw
  split at hw
  · rename_i hr
    cases hw
    exact Memory.wf_setByte h (by simpa using hr) v
  · cases hw

theorem Memory.write16_wf {m m' : Memory} (h : m.wf) {addr : Nat} {v : Half} (hw : m.write16 addr v = .ok m') :
    m'.wf := by
  unfold Memory.write16 at hw
  split at hw
  · rename_i hr
    have hr := (inRange_iff _ _).1 hr
    cases hw
    exact Memory.wf_setByte (Memory.wf_setByte h (by omega) _) (by omega) _
  · cases hw

theorem Memory.load_wf {m m' : Memory} (h : m.wf) {offset : Nat} {bytes : List Byte}
    (hw : m.load offset bytes = .ok m') : m'.wf := by
  unfold Memory.load at hw
  split at hw
  · rename_i hr
    cases hw
    exact Memory.wf_setBytes bytes h ((inRange_iff _ _).1 hr)
  · cases hw

end Sys2Proof.Machine
end

