-- ==== Sys2Proof/Laws/State.lean ====
section
/-! SUPPORT. What each update of the state does to each field. -/

namespace Sys2Proof.Machine

@[simp] theorem State.withMem_mem (s : State) (m : Memory) : (s.withMem m).mem = m := rfl
@[simp] theorem State.withMem_pc (s : State) (m : Memory) : (s.withMem m).pc = s.pc := rfl
@[simp] theorem State.withMem_mode (s : State) (m : Memory) : (s.withMem m).mode = s.mode := rfl
@[simp] theorem State.withMem_cycles (s : State) (m : Memory) : (s.withMem m).cycles = s.cycles := rfl
@[simp] theorem State.withMem_launch (s : State) (m : Memory) : (s.withMem m).launch = s.launch := rfl
@[simp] theorem State.withMem_keyWritten (s : State) (m : Memory) : (s.withMem m).keyWritten = s.keyWritten := rfl
@[simp] theorem State.withMem_requests (s : State) (m : Memory) : (s.withMem m).requests = s.requests := rfl
@[simp] theorem State.withMem_replies (s : State) (m : Memory) : (s.withMem m).replies = s.replies := rfl

@[simp] theorem State.withPc_mem (s : State) (p : Addr) : (s.withPc p).mem = s.mem := rfl
@[simp] theorem State.withPc_pc (s : State) (p : Addr) : (s.withPc p).pc = p := rfl
@[simp] theorem State.withPc_mode (s : State) (p : Addr) : (s.withPc p).mode = s.mode := rfl
@[simp] theorem State.withPc_cycles (s : State) (p : Addr) : (s.withPc p).cycles = s.cycles := rfl
@[simp] theorem State.withPc_launch (s : State) (p : Addr) : (s.withPc p).launch = s.launch := rfl
@[simp] theorem State.withPc_keyWritten (s : State) (p : Addr) : (s.withPc p).keyWritten = s.keyWritten := rfl
@[simp] theorem State.withPc_requests (s : State) (p : Addr) : (s.withPc p).requests = s.requests := rfl
@[simp] theorem State.withPc_replies (s : State) (p : Addr) : (s.withPc p).replies = s.replies := rfl

@[simp] theorem State.reply_mem (s : State) (r : Reply) : (s.reply r).mem = s.mem := rfl
@[simp] theorem State.reply_pc (s : State) (r : Reply) : (s.reply r).pc = s.pc := rfl
@[simp] theorem State.reply_mode (s : State) (r : Reply) : (s.reply r).mode = s.mode := rfl
@[simp] theorem State.reply_cycles (s : State) (r : Reply) : (s.reply r).cycles = s.cycles := rfl
@[simp] theorem State.reply_launch (s : State) (r : Reply) : (s.reply r).launch = s.launch := rfl
@[simp] theorem State.reply_keyWritten (s : State) (r : Reply) : (s.reply r).keyWritten = s.keyWritten := rfl
@[simp] theorem State.reply_requests (s : State) (r : Reply) : (s.reply r).requests = s.requests := rfl
@[simp] theorem State.reply_replies (s : State) (r : Reply) : (s.reply r).replies = r :: s.replies := rfl

@[simp] theorem State.takeFault_mem (s : State) (e : OutOfRange) : (s.takeFault e).mem = s.mem := rfl
@[simp] theorem State.takeFault_pc (s : State) (e : OutOfRange) : (s.takeFault e).pc = s.pc := rfl
@[simp] theorem State.takeFault_mode (s : State) (e : OutOfRange) : (s.takeFault e).mode = Mode.faulted := rfl
@[simp] theorem State.takeFault_cycles (s : State) (e : OutOfRange) : (s.takeFault e).cycles = s.cycles := rfl
@[simp] theorem State.takeFault_launch (s : State) (e : OutOfRange) : (s.takeFault e).launch = s.launch := rfl
@[simp] theorem State.takeFault_keyWritten (s : State) (e : OutOfRange) : (s.takeFault e).keyWritten = s.keyWritten := rfl
@[simp] theorem State.takeFault_requests (s : State) (e : OutOfRange) : (s.takeFault e).requests = s.requests := rfl
@[simp] theorem State.takeFault_replies (s : State) (e : OutOfRange) : (s.takeFault e).replies = .fatal e :: s.replies := rfl

@[simp] theorem frameEnd_mem (s : State) : (frameEnd s).mem = s.mem := rfl
@[simp] theorem frameEnd_pc (s : State) : (frameEnd s).pc = s.pc := rfl
@[simp] theorem frameEnd_mode (s : State) : (frameEnd s).mode = Mode.idle := rfl
@[simp] theorem frameEnd_cycles (s : State) : (frameEnd s).cycles = s.cycles := rfl
@[simp] theorem frameEnd_launch (s : State) : (frameEnd s).launch = s.launch := rfl
@[simp] theorem frameEnd_keyWritten (s : State) : (frameEnd s).keyWritten = s.keyWritten := rfl
@[simp] theorem frameEnd_requests (s : State) : (frameEnd s).requests = s.requests := rfl
@[simp] theorem frameEnd_replies (s : State) : (frameEnd s).replies = .frameDone :: s.replies := rfl

/-- Counting a cycle, and the frame's end with it, touches only `N`, MODE and the replies. -/
theorem completeCycle_cases (s : State) :
    completeCycle s = s ∨ completeCycle s = { s with cycles := s.cycles + 1 } ∨
      completeCycle s = frameEnd { s with cycles := s.cycles + 1 } := by
  unfold completeCycle
  dsimp only
  split
  · split
    · exact .inr (.inl rfl)
    · exact .inr (.inr rfl)
  · exact .inl rfl

@[simp] theorem completeCycle_mem (s : State) : (completeCycle s).mem = s.mem := by
  rcases completeCycle_cases s with h | h | h <;> simp [h]

@[simp] theorem completeCycle_pc (s : State) : (completeCycle s).pc = s.pc := by
  rcases completeCycle_cases s with h | h | h <;> simp [h]

@[simp] theorem completeCycle_launch (s : State) : (completeCycle s).launch = s.launch := by
  rcases completeCycle_cases s with h | h | h <;> simp [h]

@[simp] theorem completeCycle_keyWritten (s : State) : (completeCycle s).keyWritten = s.keyWritten := by
  rcases completeCycle_cases s with h | h | h <;> simp [h]

@[simp] theorem completeCycle_requests (s : State) : (completeCycle s).requests = s.requests := by
  rcases completeCycle_cases s with h | h | h <;> simp [h]

@[simp] theorem resetCore_mem (s : State) : (resetCore s).mem = [] := rfl
@[simp] theorem resetCore_pc (s : State) : (resetCore s).pc = 0x000000#24 := rfl
@[simp] theorem resetCore_mode (s : State) : (resetCore s).mode = Mode.idle := rfl
@[simp] theorem resetCore_cycles (s : State) : (resetCore s).cycles = 0 := rfl
@[simp] theorem resetCore_launch (s : State) : (resetCore s).launch = Launch.fresh := rfl
@[simp] theorem resetCore_keyWritten (s : State) : (resetCore s).keyWritten = none := rfl
@[simp] theorem resetCore_requests (s : State) : (resetCore s).requests = s.requests := rfl
@[simp] theorem resetCore_replies (s : State) : (resetCore s).replies = s.replies := rfl

end Sys2Proof.Machine
end

