-- ==== Sys2Proof/Laws/Engine.lean ====
section
/-! SUPPORT. What each shared operation of the engine and of the host interface can do, once, and the inversion of a
step. -/

namespace Sys2Proof.Machine

/-! ### Operands and fetch -/

theorem loadOperand_eq (m : Memory) (a : Addr) : loadOperand m a = .ok (m.byte a.toNat) :=
  Memory.read8_ok m (by have := a.isLt; simp only [Config.memSize]; omega)

theorem storeOperand_eq (m : Memory) (b : Addr) (d : Byte) : storeOperand m b d = .ok (m.setByte b.toNat d) :=
  Memory.write8_ok m (by have := b.isLt; simp only [Config.memSize]; omega) d

/-- The fields an instruction at `pc` has in memory. -/
theorem fetchWord_ok (m : Memory) {pc : Addr} (h : pc.toNat ≤ 0xFFFFF7) :
    fetchWord m pc = .ok (be72
      (be24 (m.byte pc.toNat) (m.byte (pc.toNat + 1)) (m.byte (pc.toNat + 2)))
      (be24 (m.byte (pc.toNat + 3)) (m.byte (pc.toNat + 4)) (m.byte (pc.toNat + 5)))
      (be24 (m.byte (pc.toNat + 6)) (m.byte (pc.toNat + 7)) (m.byte (pc.toNat + 8)))) := by
  unfold fetchWord
  rw [Memory.read24_ok m (addr := pc.toNat) (by simp only [Config.memSize]; omega),
    Memory.read24_ok m (addr := pc.toNat + 3) (by simp only [Config.memSize]; omega),
    Memory.read24_ok m (addr := pc.toNat + 6) (by simp only [Config.memSize]; omega)]

/-- A fetch that fails answers some `OutOfRange`. -/
theorem fetchWord_fails (m : Memory) {pc : Addr} (h : 0xFFFFF8 ≤ pc.toNat) : ∃ e, fetchWord m pc = .error e := by
  unfold fetchWord
  split
  · exact ⟨_, rfl⟩
  · split
    · exact ⟨_, rfl⟩
    · rw [Memory.read24_error m (addr := pc.toNat + 6) (by simp only [Config.memSize]; omega)]
      exact ⟨_, rfl⟩

/-- The nine bytes at `pc` decode to what the fetch decodes to: decoding is the three field reads (R93). -/
theorem decode_bytesAt (m : Memory) {pc : Addr} {w : InstrWord} (h : fetchWord m pc = .ok w) :
    decode (m.bytesAt pc.toNat 9) = .ok (decodeWord w, []) := by
  rcases Nat.lt_or_ge pc.toNat 0xFFFFF8 with hp | hp
  · rw [fetchWord_ok m (by omega)] at h
    cases h
    rfl
  · obtain ⟨e, he⟩ := fetchWord_fails m hp
    rw [he] at h
    cases h

/-! ### Placing an instruction -/

/-- An instruction is placed only where it can be fetched. -/
theorem placeAt_fetchable (s : State) : (placeAt s).toNat ≤ 0xFFFFF7 := by
  unfold placeAt
  split
  · rename_i h
    simp only [Bool.and_eq_true, fetchable, decide_eq_true_eq] at h
    exact h.2
  · split
    · rename_i h
      simpa [fetchable] using h
    · decide

/-- After placing a word a frame runs, a cycle of it is left, and no RESET is in the way. -/
theorem placeWord_running (s : State) (w : InstrWord) :
    (placeWord s w).mode = .run ∧ (placeWord s w).cycles < Config.cyclesPerFrame ∧
      resetDue (placeWord s w) = false := by
  refine ⟨rfl, ?_, ?_⟩
  · unfold placeWord
    dsimp only
    split
    · rename_i h
      simp only [inFrame, decide_eq_true_eq] at h
      exact h.2
    · decide
  · by_cases h : resetDue { s with mode := .run, cycles := if inFrame s then s.cycles else 0 } = true
    · have hr : (placeWord s w).requests = [] := if_pos h
      simp [resetDue, hr]
    · have hr : (placeWord s w).requests = s.requests := if_neg h
      have hd : resetDue (placeWord s w) =
          resetDue { s with mode := .run, cycles := if inFrame s then s.cycles else 0 } := by
        simp only [resetDue, hr]
        rfl
      rw [hd]
      simpa using h

/-! ### Sequencer -/

theorem frameStart_eq (s : State) :
    frameStart s = { s with
      pc := pcf s.mem, mode := .run, cycles := 0, launch := .started, keyWritten := none } := by
  unfold frameStart
  rw [Memory.read24_ok s.mem (addr := Config.pcfAddr) (by decide)]
  rfl

theorem completeCycle_more {s : State} (hm : s.mode = .run) (hc : s.cycles + 1 < Config.cyclesPerFrame) :
    completeCycle s = { s with cycles := s.cycles + 1 } := by
  simp only [completeCycle, if_pos hm, if_pos hc]

theorem completeCycle_last {s : State} (hm : s.mode = .run) (hc : Config.cyclesPerFrame ≤ s.cycles + 1) :
    completeCycle s = frameEnd { s with cycles := s.cycles + 1 } := by
  simp only [completeCycle, if_pos hm, if_neg (Nat.not_lt.2 hc)]

/-- The cycle as a function is the fetch, then one byte copied. -/
theorem cycle_eq (m : Memory) (pc : Addr) :
    cycle m pc = match fetchWord m pc with
      | .error e => .error e
      | .ok w => .ok (m.setByte (fieldB w).toNat (m.byte (fieldA w).toNat), fieldJ w) := by
  unfold cycle fetchWord
  cases m.read24 pc.toNat <;> cases m.read24 (pc.toNat + 3) <;> cases m.read24 (pc.toNat + 6) <;> simp

/-! ### Host operations -/

theorem screenPage_eq (m : Memory) :
    screenPage m = .ok (m.bytesAt ((m.byte Config.scrAddr).toNat * Config.screenPageBytes) Config.screenPageBytes) := by
  unfold screenPage
  rw [Memory.read8_ok m (addr := Config.scrAddr) (by decide)]
  exact Memory.slice_ok m (by
    have := (m.byte Config.scrAddr).isLt
    simp only [Config.memSize, Config.screenPageBytes]
    omega)

theorem audioPage_eq (m : Memory) :
    audioPage m = .ok (m.bytesAt
      ((be16 (m.byte Config.audAddr) (m.byte (Config.audAddr + 1))).toNat * Config.audioPageBytes)
      Config.audioPageBytes) := by
  unfold audioPage
  rw [Memory.read16_ok m (addr := Config.audAddr) (by decide)]
  exact Memory.slice_ok m (by
    have := (be16 (m.byte Config.audAddr) (m.byte (Config.audAddr + 1))).isLt
    simp only [Config.memSize, Config.audioPageBytes]
    omega)

/-- The state after KEY_WRITE's two byte writes. -/
theorem keyWrite_eq (mask : Half) (s : State) :
    keyWrite mask s = .next { s with
      mem := (s.mem.setByte 0 (hiByte mask)).setByte 1 (loByte mask), keyWritten := some mask } := by
  unfold keyWrite
  rw [Memory.write16_ok s.mem (addr := Config.keyAddr) (by decide)]
  rfl

theorem screenSample_eq (s : State) : screenSample s = .next (s.reply (.screen
    (s.mem.bytesAt ((s.mem.byte Config.scrAddr).toNat * Config.screenPageBytes) Config.screenPageBytes))) := by
  unfold screenSample
  rw [screenPage_eq]

theorem audioSample_eq (s : State) : audioSample s = .next (s.reply (.audio (s.mem.bytesAt
    ((be16 (s.mem.byte Config.audAddr) (s.mem.byte (Config.audAddr + 1))).toNat * Config.audioPageBytes)
    Config.audioPageBytes))) := by
  unfold audioSample
  rw [audioPage_eq]

/-- A dump answers all of memory. -/
theorem dump_eq (s : State) : dump s = .next (s.reply (.dump (s.mem.bytesAt 0 Config.memSize))) := by
  have h : s.mem.slice 0 Config.memSize = .ok (s.mem.bytesAt 0 Config.memSize) := Memory.slice_ok s.mem (by simp)
  unfold dump
  rw [h]

/-- What a host operation can do when it answers a next state. -/
theorem hostStep_cases {op : HostOp} {s t : State} (h : hostStep op s = .next t) :
    (∃ k, op = .reset k ∧ t = resetCore s) ∨
    (∃ bytes, op = .loadRom bytes ∧ s.launch = .fresh ∧ bytes.length ≤ Config.memSize ∧
      t = { s with mem := s.mem.setBytes 0 bytes, launch := .loaded, keyWritten := none }) ∨
    (∃ bytes, op = .loadRom bytes ∧ s.launch = .fresh ∧ Config.memSize < bytes.length ∧
      t = { s.reply (.loadSize ⟨0, bytes.length⟩) with launch := .refused }) ∨
    (∃ mask, op = .keyWrite mask ∧
      t = { s with
        mem := (s.mem.setByte 0 (hiByte mask)).setByte 1 (loByte mask), keyWritten := some mask }) ∨
    (∃ mask, op = .frameTick ∧ s.launch ≠ .refused ∧ s.keyWritten = some mask ∧
      t = { s with pc := pcf s.mem, mode := .run, cycles := 0, launch := .started, keyWritten := none }) ∨
    ∃ r, (op = .screenSample ∨ op = .audioSample ∨ op = .dump) ∧ t = s.reply r := by
  cases op with
  | reset k => cases h; exact .inl ⟨k, rfl, rfl⟩
  | loadRom bytes =>
    simp only [hostStep, loadRom] at h
    split at h
    · rename_i hf
      by_cases hl : bytes.length ≤ Config.memSize
      · rw [Memory.load_ok s.mem (offset := 0) (by omega)] at h
        cases h
        exact .inr (.inl ⟨bytes, rfl, hf, hl, rfl⟩)
      · rw [Memory.load_error s.mem (offset := 0) (by omega)] at h
        cases h
        exact .inr (.inr (.inl ⟨bytes, rfl, hf, by omega, rfl⟩))
    · cases h
  | keyWrite mask =>
    simp only [hostStep, keyWrite_eq] at h
    cases h
    exact .inr (.inr (.inr (.inl ⟨mask, rfl, rfl⟩)))
  | frameTick =>
    simp only [hostStep, frameTick] at h
    split at h
    · cases h
    · rename_i hl
      obtain ⟨hl, hk⟩ := not_or.1 hl
      obtain ⟨mask, hk⟩ := Option.ne_none_iff_exists'.1 hk
      rw [frameStart_eq] at h
      cases h
      exact .inr (.inr (.inr (.inr (.inl ⟨mask, rfl, hl, hk, rfl⟩))))
  | screenSample =>
    exact .inr (.inr (.inr (.inr (.inr ⟨_, .inl rfl, Host.Outcome.next.inj (h.symm.trans (screenSample_eq s))⟩))))
  | audioSample =>
    exact .inr (.inr (.inr (.inr (.inr ⟨_, .inr (.inl rfl), Host.Outcome.next.inj (h.symm.trans (audioSample_eq s))⟩))))
  | dump => exact .inr (.inr (.inr (.inr (.inr ⟨_, .inr (.inr rfl), Host.Outcome.next.inj (h.symm.trans (dump_eq s))⟩))))

/-! ### A step -/

theorem step_due {s : State} (h : resetDue s = true) :
    step s = .next (resetCore { s with requests := s.requests.tail }) := if_pos h

theorem step_idle {s : State} (hm : s.mode = .idle) (h : resetDue s = false) : step s = idleStep s := by
  simp [step, h, hm]

theorem step_run {s : State} (hm : s.mode = .run) (h : resetDue s = false) : step s = runStep s := by
  simp [step, h, hm]

theorem step_faulted {s : State} (hm : s.mode = .faulted) (h : resetDue s = false) : step s = faultedStep s := by
  simp [step, h, hm]

/-- Outside a frame a RESET that stands first is due. -/
theorem resetDue_of_head {s : State} {k : Nat} {rest : List HostOp} (hm : s.mode ≠ .run)
    (hr : s.requests = .reset k :: rest) : resetDue s = true := by
  simp [resetDue, hr, hm]

/-- An idle machine performs the operation that stands first among the requests. -/
theorem step_request {s : State} {op : HostOp} {rest : List HostOp} (hm : s.mode = .idle)
    (hr : s.requests = op :: rest) (hop : ∀ k, op ≠ .reset k) :
    step s = hostStep op { s with requests := rest } := by
  have hd : resetDue s = false := by
    unfold resetDue
    rw [hr]
    split
    · rename_i k r h
      exact absurd (List.cons.inj h).1 (hop k)
    · rfl
  rw [step_idle hm hd, idleStep, hr]

/-- Everything a step can do when it answers a next state. -/
theorem step_cases {s t : State} (h : step s = .next t) :
    (resetDue s = true ∧ t = resetCore { s with requests := s.requests.tail }) ∨
    (s.mode = .idle ∧ s.requests = [] ∧ t = s) ∨
    (s.mode = .idle ∧ resetDue s = false ∧ ∃ op rest, s.requests = op :: rest ∧
      hostStep op { s with requests := rest } = .next t) ∨
    (s.mode = .run ∧ s.cycles < Config.cyclesPerFrame ∧ ∃ e, fetchWord s.mem s.pc = .error e ∧ t = s.takeFault e) ∨
    (s.mode = .run ∧ s.cycles < Config.cyclesPerFrame ∧ ∃ w, fetchWord s.mem s.pc = .ok w ∧
      t = completeCycle { s with
        mem := s.mem.setByte (fieldB w).toNat (s.mem.byte (fieldA w).toNat), pc := fieldJ w }) ∨
    (s.mode = .run ∧ Config.cyclesPerFrame ≤ s.cycles ∧ t = frameEnd s) := by
  by_cases hd : resetDue s = true
  · rw [step_due hd] at h
    cases h
    exact .inl ⟨hd, rfl⟩
  · have hd : resetDue s = false := by simpa using hd
    have hmode : s.mode = .idle ∨ s.mode = .run ∨ s.mode = .faulted := by cases s.mode <;> simp
    rcases hmode with hm | hm | hm
    · rw [step_idle hm hd] at h
      unfold idleStep at h
      split at h
      · rename_i hr
        cases h
        exact .inr (.inl ⟨hm, hr, rfl⟩)
      · rename_i op rest hr
        exact .inr (.inr (.inl ⟨hm, hd, op, rest, hr, h⟩))
    · rw [step_run hm hd] at h
      unfold runStep at h
      split at h
      · rename_i hc
        unfold engineCycle at h
        split at h
        · rename_i e he
          cases h
          exact .inr (.inr (.inr (.inl ⟨hm, hc, e, he, rfl⟩)))
        · rename_i w hw
          simp only [exec, decodeWord, execCpj, loadOperand_eq, storeOperand_eq] at h
          cases h
          exact .inr (.inr (.inr (.inr (.inl ⟨hm, hc, w, hw, rfl⟩))))
      · rename_i hc
        cases h
        exact .inr (.inr (.inr (.inr (.inr ⟨hm, by omega, rfl⟩))))
    · rw [step_faulted hm hd] at h
      unfold faultedStep at h
      split at h <;> cases h

end Sys2Proof.Machine
end

