-- ==== Sys2Proof/Laws/PerInstr.lean ====
section
/-! SUPPORT. Statements about every instruction as syntax, one lemma for each constructor. -/

namespace Sys2Proof.Laws

/-- Every instruction is nine bytes long (R90, R95). -/
def EncodeLength.Statement (i : Instr) : Prop := (encode i).length = Config.instrBytes

theorem EncodeLength.cpj (a b j : Addr) : EncodeLength.Statement (.cpj a b j) := rfl

end Sys2Proof.Laws
end

