-- ==== Sys2Proof/Laws/Run.lean ====
section
/-! SUPPORT. Runs of several steps, one step at a time. -/

namespace Sys2Proof.Machine

theorem run_zero (s : State) : core.run 0 s = .next s := rfl

/-- A run begins with one step and stops where that step stops. -/
theorem run_succ (k : Nat) (s : State) :
    core.run (k + 1) s = match step s with
      | .next t => core.run k t
      | .fault r => .fault r
      | .refused r => .refused r := by
  simp only [Host.Core.run, show core.step s = step s from rfl]
  cases step s <;> rfl

end Sys2Proof.Machine
end

