-- ==== Sys2Proof/Machine/Flags.lean ====
section
/-! DEFINITION. Flags and condition codes: there are none (10_state.md R24). The one instruction sets no flag and reads
none, and State holds none; this file is here to say so. -/
end

