-- ==== Sys2Proof/Tests/Slice0.lean ====
section
/-! SUPPORT. Small tests: checks that refuse, words written out from the spec's encoding, single steps from the spec's own
vectors (95_test_vectors.md, cited as V<n>), and for each statement with hypotheses a state that meets them. -/

namespace Sys2Proof.Tests

open Machine Safety

/-! ### Helpers -/

/-- Memory that holds `bytes` from address `a` on. -/
def at_ (a : Nat) (bytes : List Byte) : Memory := Memory.setBytes [] a bytes

/-- A frame running at `pc`. -/
def running (m : Memory) (pc : Addr) : State :=
  { State.reset with mem := m, pc := pc, mode := .run, launch := .started }

/-- An idle machine the host asks something of. -/
def asked (m : Memory) (requests : List HostOp) : State := { State.reset with mem := m, requests := requests }

/-- An idle machine whose host has written the mask 0x0000 for the next frame. -/
def ready (m : Memory) (requests : List HostOp) : State := { asked m requests with keyWritten := some 0x0000 }

/-- A machine a fatal error has stopped. -/
def stopped (requests : List HostOp) : State :=
  { State.reset with pc := 0xFFFFF8, mode := .faulted, launch := .started, requests := requests }

/-- The outcome is a next state that passes the check. -/
def nextIs (o : Host.Outcome State Fault Refusal) (check : State → Bool) : Bool :=
  match o with
  | .next t => check t
  | _ => false

/-- The outcome is this refusal. -/
def refusedIs (o : Host.Outcome State Fault Refusal) (r : Refusal) : Bool :=
  match o with
  | .refused r' => decide (r' = r)
  | _ => false

/-- The outcome is this fault. -/
def faultIs (o : Host.Outcome State Fault Refusal) (f : Fault) : Bool :=
  match o with
  | .fault f' => decide (f' = f)
  | _ => false

/-! ### Checks that refuse -/

/-- V28, V29a: the highest place an instruction can stand, and the first it cannot. -/
theorem test_fetchable_refuses : fetchable 0xFFFFF7 = true ∧ fetchable 0xFFFFF8 = false := by decide

/-- V14, V15: a ROM of 16,777,216 bytes fits, one byte more does not. -/
theorem test_romFits_refuses :
    romFits (List.replicate 16777216 0) = true ∧ romFits (List.replicate 16777217 0) = false := by
  constructor <;> simp only [romFits, List.length_replicate] <;> decide

/-- Memory out of order, with a zero cell, or with an address that does not exist is not canonical. -/
theorem test_memory_wf_refuses :
    Memory.wf [(1, 5), (2, 6)] ∧ ¬ Memory.wf [(2, 6), (1, 5)] ∧ ¬ Memory.wf [(1, 5), (1, 6)] ∧
    ¬ Memory.wf [(1, 0)] ∧ ¬ Memory.wf [(0x1000000, 5)] := by decide

/-! ### Decoding and encoding: words written out from R91 -/

/-- V20d, bit by bit: A = 0x123456, B = 0x789ABC, J = 0xDEF011. -/
theorem test_decode_bits :
    decode [0b00010010, 0b00110100, 0b01010110, 0b01111000, 0b10011010, 0b10111100, 0b11011110, 0b11110000, 0b00010001]
      = .ok (.cpj 0x123456 0x789ABC 0xDEF011, []) := by decide

/-- R40's worked example bytes, and a tenth byte left over. -/
theorem test_decode_rest :
    decode [0x00, 0x01, 0x09, 0x00, 0x00, 0x00, 0x00, 0x01, 0x00, 0xFF]
      = .ok (.cpj 0x000109 0x000000 0x000100, [0xFF]) := by decide

/-- Eight bytes are no instruction. -/
theorem test_decode_truncated : decode [0, 1, 2, 3, 4, 5, 6, 7] = .error .truncated := by decide

/-- Program P2, instruction i0: `CPJ 0x000200, 0x010000, 0x000109`. -/
theorem test_encode_P2 :
    encode (.cpj 0x000200 0x010000 0x000109) = [0x00, 0x02, 0x00, 0x01, 0x00, 0x00, 0x00, 0x01, 0x09] := by decide

/-- V20d as the table's 72-bit number. -/
theorem test_decodeTableWord :
    decodeTableWord 72 0x123456789ABCDEF011 = some (.cpj 0x123456 0x789ABC 0xDEF011) := by decide

/-- Every bit set is the largest word (TableWordFields). -/
theorem witness_tableWord :
    (2 ^ 72 - 1 : Nat) < 2 ^ 72 ∧ decodeTableWord 72 (2 ^ 72 - 1) = some (.cpj 0xFFFFFF 0xFFFFFF 0xFFFFFF) := by decide

/-- DecodeOfEncode, EveryNineBytesAreAnInstruction: both lengths where the clauses meet. -/
theorem witness_decode_lengths :
    (Instr.cpj 0 0 0).wf = true ∧ 9 ≤ (encode (.cpj 0 0 0)).length ∧ [(0 : Byte), 1, 2, 3, 4, 5, 6, 7].length < 9 := by
  decide

/-- FetchIsThreeFieldReads at the highest fetchable address (V28). -/
theorem witness_fetch_top : (0xFFFFF7#24).toNat ≤ 0xFFFFF7 ∧
    fetchWord (at_ 0xFFFFF7 [0x00, 0x00, 0x10, 0x00, 0x00, 0x20, 0x00, 0x00, 0x30]) 0xFFFFF7
      = .ok 0x000010000020000030 := by decide

/-! ### Memory: where in range meets out of range -/

/-- V2, V3: big-endian. -/
theorem test_reads : (at_ 0x10 [0xAB, 0xCD]).read16 0x10 = .ok 0xABCD ∧
    (at_ 0x10 [0x12, 0x34, 0x56]).read24 0x10 = .ok 0x123456 := by decide

/-- V6 to V11: the last access in range and the first out of it, in each width. -/
theorem witness_read_edges :
    (at_ 0xFFFFFF [0x7E]).read8 0xFFFFFF = .ok 0x7E ∧ Memory.read8 [] 0x1000000 = .error ⟨0x1000000, 1⟩ ∧
    (at_ 0xFFFFFE [0x01, 0x02]).read16 0xFFFFFE = .ok 0x0102 ∧ Memory.read16 [] 0xFFFFFF = .error ⟨0xFFFFFF, 2⟩ ∧
    (at_ 0xFFFFFD [0x01, 0x02, 0x03]).read24 0xFFFFFD = .ok 0x010203 ∧
    Memory.read24 [] 0xFFFFFE = .error ⟨0xFFFFFE, 3⟩ := by decide

/-- V4, V12 and the edges of writes. -/
theorem witness_write_edges :
    Memory.write16 [] 0x10 0xABCD = .ok [(0x10, 0xAB), (0x11, 0xCD)] ∧
    Memory.write16 [] 0xFFFFFF 0x1234 = .error ⟨0xFFFFFF, 2⟩ ∧
    Memory.write16 [] 0xFFFFFE 0x1234 = .ok [(0xFFFFFE, 0x12), (0xFFFFFF, 0x34)] ∧
    Memory.write8 [] 0xFFFFFF 0x01 = .ok [(0xFFFFFF, 0x01)] ∧
    Memory.write8 [] 0x1000000 0x01 = .error ⟨0x1000000, 1⟩ := by decide

/-- V16, V17 and the last byte: where a load fits and where it does not. -/
theorem witness_load_edges :
    Memory.load [] 0xFFFFFF [0x05] = .ok [(0xFFFFFF, 0x05)] ∧ Memory.load [] 0 [] = .ok [] ∧
    Memory.load [] 0xFFFFFF [0x05, 0x06] = .error ⟨0xFFFFFF, 2⟩ := by decide

/-- A slice up to the last byte, and one past it; no byte of length 0 is out of range. -/
theorem witness_slice_edges :
    (at_ 0xFFFFFE [1, 2]).slice 0xFFFFFE 2 = .ok [1, 2] ∧ Memory.slice [] 0xFFFFFF 2 = .error ⟨0xFFFFFF, 2⟩ ∧
    Memory.slice [] 0x1000000 0 = .ok [] := by decide

/-- Writing 0x00 removes the cell, so equal memories are equal data. -/
theorem test_write_zero : (at_ 0x10 [0xAB, 0xCD]).setByte 0x10 0x00 = [(0x11, 0xCD)] := by decide

/-! ### One instruction cycle -/

/-- V21: plain copy and jump. -/
theorem test_cpj_copies :
    nextIs (step (running ((at_ 0x100 [0, 2, 0, 0, 3, 0, 0, 1, 9]).setByte 0x200 0x5A) 0x100))
      (fun t => decide (t.mem.byte 0x300 = 0x5A ∧ t.pc = 0x109 ∧ t.cycles = 1 ∧ t.mode = .run)) = true := by decide

/-- V24: a write into its own J field; the jump goes to the old J. The state meets OwnInstructionWriteUsesOldFields and
StepRunsTheDecodedInstruction. -/
theorem test_cpj_own_jump_field :
    let s := running ((at_ 0x100 [0, 2, 0, 0, 1, 8, 0, 1, 0x12]).setByte 0x200 0x1B) 0x100
    Running s ∧ decode (s.mem.bytesAt s.pc.toNat 9) = .ok (.cpj 0x200 0x108 0x112, []) ∧
    nextIs (step s) (fun t => decide (t.mem.byte 0x108 = 0x1B ∧ t.pc = 0x112)) = true := by decide

/-- V27: a store to PCF does not affect `PC`; the other clause of OwnInstructionWriteUsesOldFields. -/
theorem witness_cpj_pcf :
    let s := running (((at_ 0x100 [0, 2, 0, 0, 0, 4, 0, 1, 9]).setByte 0x200 0x12).setByte 3 1) 0x100
    Running s ∧ decode (s.mem.bytesAt s.pc.toNat 9) = .ok (.cpj 0x200 4 0x109, []) ∧
    nextIs (step s) (fun t => decide (t.mem.byte 4 = 0x12 ∧ t.pc = 0x109)) = true := by decide

/-- V25: a store into the next instruction's J (StoreIsSeenByTheNextFetch). -/
theorem witness_next_fetch :
    let s := running ((at_ 0x100 [0, 2, 0, 0, 1, 0x11, 0, 1, 9, 0, 0, 0, 0, 0, 0, 0, 4, 0]).setByte 0x200 9) 0x100
    Running s ∧ s.cycles + 1 < Config.cyclesPerFrame ∧ (0x109#24).toNat ≤ 0xFFFFF7 ∧
    decode (s.mem.bytesAt s.pc.toNat 9) = .ok (.cpj 0x200 0x111 0x109, []) ∧
    nextIs (step s) (fun t => nextIs (step t) (fun u => decide (u.pc = 0x409))) = true := by decide

/-- V22: A = B in canonical memory (CopyOntoItselfOnlyJumps), and CpjFrame's premise. -/
theorem witness_copy_onto_itself :
    let s := running (at_ 0x200 [0x5A]) 0x100
    s.mem.wf ∧ nextIs (exec (.cpj 0x200 0x200 0x400) s) (fun t => decide (t = { s with pc := 0x400 })) = true := by
  decide

/-- V29a to V29f: the error names the first field read that fails, at every edge of the three ranges
(FetchFaultEntersFaulted). -/
theorem witness_fetch_fault_edges :
    ∀ p ∈ [(0xFFFFF8#24, 0xFFFFFE), (0xFFFFFA#24, 0x1000000), (0xFFFFFB#24, 0xFFFFFE), (0xFFFFFD#24, 0x1000000),
        (0xFFFFFE#24, 0xFFFFFE), (0xFFFFFF#24, 0xFFFFFF)],
      Running (running [] p.1) ∧
      nextIs (step (running [] p.1))
        (fun t => decide (t = { running [] p.1 with mode := .faulted, replies := [.fatal ⟨p.2, 3⟩] })) = true := by
  decide

/-- V29g: J = 0xFFFFF8 is stored normally; DataAccessesNeverFault, where the next fetch fails and where it does not. -/
theorem witness_jump_to_the_top :
    nextIs (exec (.cpj 0x200 0x300 0xFFFFF8) (running [] 0x100)) (fun t => decide (t.pc = 0xFFFFF8)) = true ∧
    fetchWord [] 0xFFFFF8 = .error ⟨0xFFFFFE, 3⟩ ∧ fetchWord [] 0xFFFFF7 = .ok 0 := by decide

/-- Two running states that differ in everything but memory and `PC` (CycleIsAFunctionOfMemoryAndPc). -/
theorem witness_two_running_states :
    let s := running [] 0x100
    let s' := { s with cycles := 65535, requests := [.dump], replies := [.frameDone] }
    Running s ∧ Running s' ∧ s.mem = s'.mem ∧ s.pc = s'.pc ∧ s ≠ s' := by decide

/-- A placed word runs next (PlacedWordIsRunNext): from reset, and from a state whose `PC` cannot be fetched from and whose
next request is a RESET. -/
theorem witness_placed_word :
    decodeTableWord 72 0x000200000300000109 = some (.cpj 0x200 0x300 0x109) ∧
    nextIs (step (State.reset.withFetchWord 72 0x000200000300000109)) (fun t => decide (t.pc = 0x109)) = true ∧
    nextIs (step ((stopped [.reset 0]).withFetchWord 72 0x000200000300000109)) (fun t => decide (t.pc = 0x109)) = true := by
  decide

/-! ### The frame sequencer -/

/-- V35: the frame start reloads `PC` from PCF and discards the old one (FrameStartLoadsPcFromPcf, FrameIgnoresTheOldPc). -/
theorem witness_frame_start :
    let s := { ready (at_ 2 [0x00, 0x01, 0x00]) [.frameTick] with pc := 0xABCDEF }
    s.mode = .idle ∧ s.launch ≠ .refused ∧ s.keyWritten ≠ none ∧ s.requests = [.frameTick] ∧
    nextIs (step s) (fun t => decide (t.pc = 0x100 ∧ t.mem = s.mem ∧ t.mode = .run ∧ t.cycles = 0
      ∧ t.keyWritten = none)) = true := by decide

/-- V33: the last cycle of a frame jumps to 0xFFFFF8 without a fault (CycleCountsAndFrameEnds, its first clause). -/
theorem witness_last_cycle :
    let s := { running ((at_ 0x100 [0, 2, 0, 0, 3, 0, 0xFF, 0xFF, 0xF8]).setByte 0x200 0x5A) 0x100 with cycles := 65535 }
    Running s ∧ nextIs (step s) (fun t => decide (t.mem.byte 0x300 = 0x5A ∧ t.pc = 0xFFFFF8 ∧ t.cycles = 65536 ∧
      t.mode = .idle ∧ t.replies = [.frameDone])) = true := by decide

/-- The cycle before it does not end the frame (CycleCountsAndFrameEnds, its second clause). -/
theorem witness_cycle_before_last :
    let s := { running [] 0 with cycles := 65534 }
    Running s ∧ nextIs (step s) (fun t => decide (t.cycles = 65535 ∧ t.mode = .run ∧ t.replies = [])) = true := by decide

/-- V30: on zero memory every cycle at 0 leaves everything as it is. -/
theorem cyclesFrom_zero_memory (k : Nat) : cyclesFrom k [] 0 = .ok ([], 0) := by
  induction k with
  | zero => rfl
  | succ k ih =>
    have h : cycle [] 0 = .ok ([], 0) := by decide
    simp only [cyclesFrom, h, ih]

/-- FrameTickIsIteratedCycle and EveryFrameCompletesOrFaults: a machine with no ROM, asked for a frame (V30). -/
theorem witness_frame_completes :
    let s := ready [] [.frameTick]
    s.mode = .idle ∧ s.requests = [.frameTick] ∧ undisturbed [] = true ∧ s.launch ≠ .refused ∧ s.keyWritten ≠ none ∧
    s.mem.read24 0x000002 = .ok 0 ∧ cyclesFrom Config.cyclesPerFrame s.mem 0 = .ok ([], 0) :=
  ⟨rfl, rfl, rfl, by decide, by decide, by decide, cyclesFrom_zero_memory _⟩

/-- V31, V36: a frame that faults in its first cycle and one that faults in its second (FaultStopsTheFrame). -/
theorem witness_frame_faults :
    let s := ready (at_ 2 [0xFF, 0xFF, 0xF8]) [.frameTick]
    let u := ready (((at_ 0x100 [0, 2, 0, 0, 3, 0, 0xFF, 0xFF, 0xF8]).setByte 0x200 0x5A).setByte 3 1) [.frameTick]
    (s.mem.read24 2 = .ok 0xFFFFF8 ∧ cyclesFrom 0 s.mem 0xFFFFF8 = .ok (s.mem, 0xFFFFF8) ∧
      cycle s.mem 0xFFFFF8 = .error ⟨0xFFFFFE, 3⟩) ∧
    (u.mem.read24 2 = .ok 0x100 ∧ cyclesFrom 1 u.mem 0x100 = .ok (u.mem.setByte 0x300 0x5A, 0xFFFFF8) ∧
      cycle (u.mem.setByte 0x300 0x5A) 0xFFFFF8 = .error ⟨0xFFFFFE, 3⟩) ∧
    (s.mode = .idle ∧ s.launch ≠ .refused ∧ s.keyWritten ≠ none) ∧
    (u.mode = .idle ∧ u.launch ≠ .refused ∧ u.keyWritten ≠ none) ∧ undisturbed [] = true :=
  ⟨by decide, by decide, by decide, by decide, rfl⟩

/-- FramePeriodRuns: a machine with no ROM and no key held. -/
theorem witness_frame_period :
    let s := asked [] (framePeriod 0x0000 ++ [])
    s.mode = .idle ∧ s.launch ≠ .refused ∧ s.mem.write16 0x000000 0x0000 = .ok [] ∧
    Memory.read24 [] 0x000002 = .ok 0 ∧ cyclesFrom Config.cyclesPerFrame [] 0 = .ok ([], 0) :=
  ⟨rfl, by decide, by decide, by decide, cyclesFrom_zero_memory _⟩

/-! ### The host operations -/

/-- LoadRomPlacesTheRom, SecondLoadHasNoStep: program P5's ROM, and a second load. -/
theorem witness_load_rom :
    nextIs (step (asked [] [.loadRom [0x00, 0x00, 0xFF, 0xFF, 0xF8]]))
      (fun t => decide (t.mem = [(2, 0xFF), (3, 0xFF), (4, 0xF8)] ∧ t.launch = .loaded)) = true ∧
    refusedIs (step { asked [] [.loadRom [1]] with launch := .loaded }) (.notEnabled (.loadRom [1])) = true := by decide

/-- OversizeRomRefusesTheLaunch: a ROM of 16,777,217 bytes (V15); and the longest that fits (LoadRomPlacesTheRom, V14). -/
theorem witness_oversize_rom :
    (asked [] []).mode = .idle ∧ (asked [] []).launch = .fresh ∧ (List.replicate 16777217 (0 : Byte)).length > 16777216 ∧
    (List.replicate 16777216 (0 : Byte)).length ≤ 16777216 := by
  refine ⟨rfl, rfl, ?_, ?_⟩
  · rw [List.length_replicate]
    decide
  · rw [List.length_replicate]

/-- V37 to V41 (KeyWriteSetsKey): the two bytes a mask puts at addresses 0 and 1. -/
def keyBytes (mask : Half) (b0 b1 : Byte) : Bool :=
  nextIs (step (asked [] [.keyWrite mask])) (fun t => decide (t.mem.byte 0 = b0 ∧ t.mem.byte 1 = b1))

theorem witness_key_write :
    keyBytes 0x0001 0x00 0x01 = true ∧ keyBytes 0x0080 0x00 0x80 = true ∧ keyBytes 0x0100 0x01 0x00 = true ∧
    keyBytes 0x8000 0x80 0x00 = true ∧ keyBytes 0xFFFF 0xFF 0xFF = true := by decide

/-- Keys 0, 7, 8 and 15 as masks, and two held together (HeldKeysAreSeenInKey). -/
theorem witness_held_keys :
    keyMask [0] = 0x0001 ∧ keyMask [7] = 0x0080 ∧ keyMask [8] = 0x0100 ∧ keyMask [15] = 0x8000 ∧
    keyMask [15, 0] = 0x8001 ∧ (asked [] [.keyWrite (keyMask [15, 0])]).mode = .idle := by decide

/-- The premises of ScreenSampleReturnsThePage, AudioSampleReturnsThePage and DumpReturnsAllOfMemory. -/
theorem witness_samplings :
    (asked [] [.screenSample]).mode = .idle ∧ (asked [] [.audioSample]).mode = .idle ∧ (asked [] [.dump]).mode = .idle := by
  decide

/-- V46b: the audio selector is big-endian; the page is that of 0x010000. -/
theorem test_audio_page :
    (match audioPage ((at_ 6 [0x01, 0x00]).setByte 0x010003 0x77) with
      | .ok page => decide (page.length = 256 ∧ page[3]? = some 0x77)
      | .error _ => false) = true := by decide +kernel

/-- DumpReloadsAsARom: a machine that dumps, and a fresh one that loads what it answered. -/
theorem witness_dump_reloads :
    let s := asked [(5, 1)] [.dump]
    let bytes := s.mem.bytesAt 0 Config.memSize
    let t := asked [] [.loadRom bytes]
    s.mem.wf ∧ step s = .next { s with requests := [], replies := [.dump bytes] } ∧ t.mem.wf ∧ t.launch = .fresh := by
  refine ⟨by decide, ?_, Memory.wf_nil, rfl⟩
  rw [step_idle rfl rfl]
  exact dump_eq _

/-- The palette table (V, after V49), on both sides of 215 and 216. -/
theorem test_palette :
    palette 0x01 = ⟨0x00, 0x00, 0x33⟩ ∧ palette 0x06 = ⟨0x00, 0x33, 0x00⟩ ∧ palette 0x23 = ⟨0x00, 0xFF, 0xFF⟩ ∧
    palette 0x64 = ⟨0x66, 0xCC, 0xCC⟩ ∧ palette 0xD7 = ⟨0xFF, 0xFF, 0xFF⟩ ∧ palette 0xD8 = ⟨0x00, 0x00, 0x00⟩ := by decide

/-- V47 to V49: samples and silence, both clauses. -/
theorem test_samples :
    enqueued [0x00, 0x80, 0x01, 0x7F, 0x81, 0xFF] = some [0, -128, 1, 127, -127, -1] ∧
    enqueued [0x00, 0x00] = none ∧ enqueued [0x00, 0x01] = some [0, 1] := by decide

/-! ### Faults, reset, the machine as a whole -/

/-- V34 and the three clauses of FaultedIsAbsorbing; both stops of StepStopsOnlyOutsideTheRules. -/
theorem witness_faulted :
    faultIs (step (stopped [])) .faulted = true ∧
    refusedIs (step (stopped [.frameTick])) (.notEnabled .frameTick) = true ∧
    nextIs (step (stopped [.reset 7])) (fun t => decide (t = State.reset)) = true := by decide

/-- IdleCoreWaits, and StepKeepsInvariant from reset. -/
theorem witness_idle : nextIs (step State.reset) (fun t => decide (t = State.reset)) = true := by decide

/-- The invariant holds at reset and in a machine a fatal error has stopped. -/
theorem witness_invariant :
    RunInvariant State.reset ∧ RunInvariant { stopped [] with replies := [.fatal ⟨0xFFFFFE, 3⟩] } :=
  ⟨⟨Memory.wf_nil, by decide, nofun, nofun, nofun⟩,
    ⟨Memory.wf_nil, by decide, nofun, fun _ => ⟨by decide, rfl, ⟨0xFFFFFE, 3⟩, by decide, rfl⟩, nofun⟩⟩

/-- ResetWorksInEveryMode: in a frame at the very cycle it waits for, and one cycle before, when the frame goes on; the
first clause of OnlyFourWritersOfMemory and of OnlyFrameStartReloadsPc. -/
theorem witness_reset :
    let s := { running (at_ 0x10 [1]) 0x100 with cycles := 5, requests := [.reset 5] }
    nextIs (step s) (fun t => decide (t = State.reset)) = true ∧
    nextIs (step { s with cycles := 4 }) (fun t => decide (t.mode = .run ∧ t.cycles = 5 ∧ t.requests = [.reset 5])) = true := by
  decide

/-- The other clauses of OnlyFourWritersOfMemory (ROM load, keyboard write, write step of a cycle). -/
theorem witness_memory_writers :
    nextIs (step (asked [] [.loadRom [9]])) (fun t => decide (t.mem.byte 0 ≠ 0)) = true ∧
    nextIs (step (asked [] [.keyWrite 0x0001])) (fun t => decide (t.mem.byte 1 ≠ 0)) = true ∧
    nextIs (step (running ((at_ 0x100 [0, 2, 0, 0, 3, 0, 0, 1, 9]).setByte 0x200 0x5A) 0x100))
      (fun t => decide (t.mem.byte 0x300 ≠ 0)) = true := by decide

/-- OnlyFrameStartReloadsPc: a frame start and a cycle that change `PC`. -/
theorem witness_pc_writers :
    nextIs (step (ready (at_ 2 [0x00, 0x01, 0x00]) [.frameTick])) (fun t => decide (t.pc ≠ 0)) = true ∧
    nextIs (step (running [] 0x100)) (fun t => decide (t.pc = 0 ∧ t.pc ≠ 0x100)) = true := by decide

/-- OnlyTheFetchFaults: a step into FAULTED. -/
theorem witness_into_faulted :
    (running [] 0xFFFFF8).mode ≠ .faulted ∧
    nextIs (step (running [] 0xFFFFF8)) (fun t => decide (t.mode = .faulted)) = true := by decide

/-! ### The order the host keeps -/

/-- U11: a frame asked for right after reset, or after a ROM alone, has no step (FrameNeedsAKeyWrite); a KEY_WRITE before
the load does not count. -/
theorem witness_frame_without_key_write :
    refusedIs (step (asked [] [.frameTick])) (.notEnabled .frameTick) = true ∧
    nextIs (step (ready [] [.loadRom [0x55], .frameTick]))
      (fun t => refusedIs (step t) (.notEnabled .frameTick)) = true := by decide

/-- R152: a ROM that stores 0x5566 in KEY, the mask 0x8001, and the frame start: KEY is the mask
(KeyIsTheMaskAtFrameStart, OnlyAKeyWriteReadiesAFrame: its first clause). -/
theorem witness_key_at_frame_start :
    let s := asked (at_ 0 [0x55, 0x66]) [.keyWrite 0x8001, .frameTick]
    nextIs (step s) (fun t => decide (t.keyWritten = some 0x8001 ∧ t.mode ≠ .run) &&
      nextIs (step t) (fun u => decide (u.mode = .run ∧ u.mem.read16 0 = .ok 0x8001))) = true := by decide

/-- The premises of KeyIsTheMaskAtFrameStart together. -/
theorem witness_keyed_invariant :
    let s := ready [] [.frameTick]
    RunInvariant s ∧ s.mode ≠ .run ∧ nextIs (step s) (fun t => decide (t.mode = .run)) = true :=
  ⟨⟨Memory.wf_nil, by decide, nofun, nofun, fun _ h => by cases h; decide⟩, by decide, by decide⟩

/-- OnlyAKeyWriteReadiesAFrame, both clauses: a KEY_WRITE, and an idle step that keeps it. -/
theorem witness_key_write_stands :
    (RunInvariant (asked [] [.keyWrite 0x8001]) ∧
      nextIs (step (asked [] [.keyWrite 0x8001])) (fun t => decide (t.keyWritten = some 0x8001)) = true) ∧
    (RunInvariant (ready [] []) ∧
      nextIs (step (ready [] [])) (fun t => decide (t.keyWritten = some 0x0000)) = true) :=
  ⟨⟨⟨Memory.wf_nil, by decide, nofun, nofun, nofun⟩, by decide⟩,
    ⟨⟨Memory.wf_nil, by decide, nofun, nofun, fun _ h => by cases h; decide⟩, by decide⟩⟩

/-- RefusedLaunchStaysRefused: the host goes on with its loop after a load that failed. -/
theorem witness_refused_launch :
    let s := { asked [] [.keyWrite 0x0000, .frameTick] with launch := .refused }
    resetDue s = false ∧ nextIs (step s) (fun t => decide (t.launch = .refused ∧ t.mode = .idle) &&
      refusedIs (step t) (.notEnabled .frameTick)) = true := by decide

end Sys2Proof.Tests
end

/-! PROOF. The accessors of 20_memory.md: the range check of the one-byte accesses, what a one-byte write changes and
leaves, and the round-trip laws. -/

namespace Sys2Proof.Machine

/-! ### The one-byte accesses out of range -/

theorem Memory.read8_error (m : Memory) {addr : Nat} (h : ¬ addr + 1 ≤ Config.memSize) :
    m.read8 addr = .error ⟨addr, 1⟩ := if_neg (by simpa using h)

theorem Memory.write8_error (m : Memory) {addr : Nat} (h : ¬ addr + 1 ≤ Config.memSize) (v : Byte) :
    m.write8 addr v = .error ⟨addr, 1⟩ := if_neg (by simpa using h)

/-! ### The round-trip laws, one for each width (R65) -/

theorem Memory.read8_setByte_same (m : Memory) {addr : Nat} (h : addr + 1 ≤ Config.memSize) (v : Byte) :
    (m.setByte addr v).read8 addr = .ok v := by
  rw [Memory.read8_ok _ h, Memory.byte_setByte_same]

/-- Both bytes of a 16-bit value, written at their own addresses, read back as the value: the second write leaves the
first byte alone. -/
theorem Memory.read16_setByte_setByte (m : Memory) {addr : Nat} (h : addr + 2 ≤ Config.memSize) (v : Half) :
    ((m.setByte addr (hiByte v)).setByte (addr + 1) (loByte v)).read16 addr = .ok v := by
  rw [Memory.read16_ok _ h]
  simp [Memory.byte_setByte, be16_split]

/-- The three bytes of a 24-bit value, written in address order, read back as the value: each write leaves the bytes
before it alone. -/
theorem Memory.read24_setByte_setByte_setByte (m : Memory) {addr : Nat} (h : addr + 3 ≤ Config.memSize) (v : Addr) :
    (((m.setByte addr (v.extractLsb' 16 8)).setByte (addr + 1) (v.extractLsb' 8 8)).setByte (addr + 2)
      (v.extractLsb' 0 8)).read24 addr = .ok v := by
  rw [Memory.read24_ok _ h]
  simp [Memory.byte_setByte, be24_split]

/-! ### The obligations -/

/-- Settles O7: above 0xFFFFFF the range check of one byte fails, and up to it the read gives the byte. -/
theorem byteReadIsRangeChecked : Obligations.ByteReadIsRangeChecked := by
  intro m addr
  have hsize : Config.memSize = 0x1000000 := rfl
  split
  · exact Memory.read8_error m (by omega)
  · exact Memory.read8_ok m (by omega)

/-- Settles O10: in range the memory written is `setByte`, whose two read laws are the byte stored and the frame. -/
theorem byteWriteStoresOneByte : Obligations.ByteWriteStoresOneByte := by
  intro m addr v
  have hsize : Config.memSize = 0x1000000 := rfl
  split
  · exact Memory.write8_error m (by omega) v
  · exact ⟨m.setByte addr v, Memory.write8_ok m (by omega) v, Memory.byte_setByte_same m addr v,
      fun _ hx => Memory.byte_setByte_ne m v hx⟩

/-- Settles O12: every access is in range, so each law is the round trip of its width over `setByte`. -/
theorem writesReadBack : Obligations.WritesReadBack := by
  have hsize : Config.memSize = 0x1000000 := rfl
  refine ⟨fun m v addr h => ?_, fun m v addr h => ?_, fun m v addr h => ?_⟩
  · exact ⟨_, _, _, Memory.write8_ok m (by omega) _, Memory.write8_ok _ (by omega) _, Memory.write8_ok _ (by omega) _,
      Memory.read24_setByte_setByte_setByte m (by omega) v⟩
  · exact ⟨_, Memory.write16_ok m (by omega) v, Memory.read16_setByte_setByte m (by omega) v⟩
  · exact ⟨_, Memory.write8_ok m (by omega) v, Memory.read8_setByte_same m (by omega) v⟩

end Sys2Proof.Machine

/-! PROOF. The copy-and-jump instruction and one cycle of a running frame (40_copy_jump.md): CPJ as one equation, and the
step of the engine as the function `cycle` of memory and `PC`. -/

namespace Sys2Proof.Machine

open Sys2Proof.Safety

/-! ### CPJ -/

/-- CPJ stores at B the byte at A and jumps to J: both data accesses are in range (R111, R114). -/
theorem exec_cpj (a b j : Addr) (s : State) :
    exec (.cpj a b j) s = .next ((s.withMem (s.mem.setByte b.toNat (s.mem.byte a.toNat))).withPc j) := by
  simp only [exec, execCpj, loadOperand_eq, storeOperand_eq]

/-! ### A cycle as a function of memory and `PC` (R121) -/

theorem cycle_eq_error_iff {m : Memory} {pc : Addr} {e : OutOfRange} :
    cycle m pc = .error e ↔ fetchWord m pc = .error e := by
  rw [cycle_eq]
  cases fetchWord m pc <;> simp

theorem cycle_eq_ok_iff {m m' : Memory} {pc pc' : Addr} :
    cycle m pc = .ok (m', pc') ↔ ∃ w, fetchWord m pc = .ok w ∧
      m.setByte (fieldB w).toNat (m.byte (fieldA w).toNat) = m' ∧ fieldJ w = pc' := by
  rw [cycle_eq]
  cases fetchWord m pc <;> simp

/-- Up to 0xFFFFF7 a cycle answers a memory and a `PC` (R113, R114). -/
theorem cycle_ok (m : Memory) {pc : Addr} (h : pc.toNat ≤ 0xFFFFF7) : ∃ m' pc', cycle m pc = .ok (m', pc') :=
  ⟨_, _, cycle_eq_ok_iff.2 ⟨_, fetchWord_ok m h, rfl, rfl⟩⟩

theorem cycle_fails (m : Memory) {pc : Addr} (h : 0xFFFFF8 ≤ pc.toNat) : ∃ e, cycle m pc = .error e :=
  (fetchWord_fails m h).imp fun _ he => cycle_eq_error_iff.2 he

/-! ### The step of a running frame -/

theorem step_running {s : State} (hs : Running s) : step s = engineCycle s := by
  obtain ⟨hmode, hcycles, hreset⟩ := hs
  rw [step_run hmode hreset, runStep, if_pos hcycles]

/-- An error of `cycle` becomes the fatal error of the step (R113, R184). -/
theorem step_of_cycle_error {s : State} (hs : Running s) {e : OutOfRange} (hc : cycle s.mem s.pc = .error e) :
    step s = .next (s.takeFault e) := by
  rw [step_running hs, engineCycle, cycle_eq_error_iff.1 hc]

/-- A memory and `PC` that `cycle` answers are those of the step, which besides only counts the cycle (R121, R132). -/
theorem step_of_cycle_ok {s : State} (hs : Running s) {m : Memory} {p : Addr} (hc : cycle s.mem s.pc = .ok (m, p)) :
    step s = .next (completeCycle ((s.withMem m).withPc p)) := by
  obtain ⟨w, hw, rfl, rfl⟩ := cycle_eq_ok_iff.1 hc
  simp only [step_running hs, engineCycle, hw, decodeWord, exec_cpj]

/-- Counting a cycle is no way into FAULTED, nor out of it. -/
@[simp] theorem completeCycle_mode_faulted (s : State) : (completeCycle s).mode = .faulted ↔ s.mode = .faulted := by
  unfold completeCycle
  split
  · rename_i hrun
    dsimp only
    split <;> simp [hrun]
  · rfl

/-! ### The obligations -/

/-- Settles O18: the byte stored is the one that is there, and in canonical memory that store changes nothing. -/
theorem copyOntoItselfOnlyJumps : Obligations.CopyOntoItselfOnlyJumps := by
  intro a j s hwf
  rw [exec_cpj, Memory.setByte_byte hwf a.isLt]
  rfl

/-- Settles O22: both steps are given by the one value of `cycle` at the common memory and `PC`, an answer up to
0xFFFFF7 and the fetch fault above. -/
theorem cycleIsAFunctionOfMemoryAndPc : Obligations.CycleIsAFunctionOfMemoryAndPc := by
  intro s s' hs hs' hmem hpc
  have hrun : s.mode = .run := hs.1
  have hrun' : s'.mode = .run := hs'.1
  rcases Nat.lt_or_ge s.pc.toNat 0xFFFFF8 with hp | hp
  · obtain ⟨m, p, hc⟩ := cycle_ok s.mem (pc := s.pc) (by omega)
    have hc' : cycle s'.mem s'.pc = .ok (m, p) := by rw [← hmem, ← hpc, hc]
    exact ⟨_, _, step_of_cycle_ok hs hc, step_of_cycle_ok hs' hc', by simp, by simp,
      by simp [hrun, hrun'], by simpa [hrun] using hp⟩
  · obtain ⟨e, hc⟩ := cycle_fails s.mem hp
    have hc' : cycle s'.mem s'.pc = .error e := by rw [← hmem, ← hpc, hc]
    exact ⟨_, _, step_of_cycle_error hs hc, step_of_cycle_error hs' hc', hmem, hpc, by simp, by simpa using hp⟩

end Sys2Proof.Machine

/-! PROOF. The palette of 42_mmio_interface.md R158: a base-6 digit times 0x33 fits a byte and is one of the six values,
and the three components of a colour of the cube are the base-6 digits of the index. -/

namespace Sys2Proof.Machine

/-! ### One component of the cube -/

/-- 0x33 × 5 = 0xFF, so a base-6 digit times 0x33 does not wrap in a byte. -/
theorem cubeLevel_toNat {d : Nat} (hd : d < 6) : (BitVec.ofNat 8 (d * 0x33)).toNat = d * 0x33 :=
  Nat.mod_eq_of_lt (by omega)

theorem cubeLevel_mem :
    ∀ d < 6, BitVec.ofNat 8 (d * 0x33) ∈ [0x00#8, 0x33#8, 0x66#8, 0x99#8, 0xCC#8, 0xFF#8] := by decide

/-! ### The palette, by its two ranges -/

theorem palette_cube {idx : Byte} (h : idx.toNat ≤ 215) :
    palette idx = ⟨BitVec.ofNat 8 (idx.toNat / 36 * 0x33), BitVec.ofNat 8 (idx.toNat / 6 % 6 * 0x33),
      BitVec.ofNat 8 (idx.toNat % 6 * 0x33)⟩ := if_pos h

theorem palette_black {idx : Byte} (h : 216 ≤ idx.toNat) : palette idx = ⟨0, 0, 0⟩ := if_neg (by omega)

/-- Every colour is made of three base-6 digits, each times 0x33; black is made of zeros. -/
theorem palette_eq_digits (idx : Byte) : ∃ r < 6, ∃ g < 6, ∃ b < 6,
    palette idx = ⟨BitVec.ofNat 8 (r * 0x33), BitVec.ofNat 8 (g * 0x33), BitVec.ofNat 8 (b * 0x33)⟩ := by
  rcases Nat.lt_or_ge 215 idx.toNat with h | h
  · exact ⟨0, by omega, 0, by omega, 0, by omega, palette_black h⟩
  · exact ⟨_, by omega, _, by omega, _, by omega, palette_cube h⟩

/-! ### The obligation -/

/-- Settles O41: up to 215 the components are base-6 digits times 0x33, which do not wrap; above, the colour is black;
and in both ranges each component is the level of a base-6 digit. -/
theorem paletteIsTheSixCube : Obligations.PaletteIsTheSixCube := by
  intro idx
  refine ⟨fun h => ?_, palette_black, ?_⟩
  · rw [palette_cube h]
    exact ⟨cubeLevel_toNat (by omega), cubeLevel_toNat (by omega), cubeLevel_toNat (by omega)⟩
  · obtain ⟨r, hr, g, hg, b, hb, hcolour⟩ := palette_eq_digits idx
    rw [hcolour]
    simp only [List.forall_mem_cons]
    exact ⟨cubeLevel_mem r hr, cubeLevel_mem g hg, cubeLevel_mem b hb, nofun⟩

end Sys2Proof.Machine

/-! PROOF. The decoder and the encoder of 30_encoding.md: the nine bytes and the fields they make, and the numbering of
the bits in opcode_table.json. -/

namespace Sys2Proof.Machine

/-! ### Nine bytes and their fields -/

/-- The nine bytes at the front are A, B and J, three bytes each (R91). -/
theorem decode_nine (b0 b1 b2 b3 b4 b5 b6 b7 b8 : Byte) (rest : List Byte) :
    decode (b0 :: b1 :: b2 :: b3 :: b4 :: b5 :: b6 :: b7 :: b8 :: rest) =
      .ok (.cpj (be24 b0 b1 b2) (be24 b3 b4 b5) (be24 b6 b7 b8), rest) := by
  rw [decode, decodeWord_be72]

theorem decode_encode (i : Instr) (rest : List Byte) : decode (encode i ++ rest) = .ok (i, rest) := by
  cases i with
  | cpj a b j => simp only [encode, addrBytes, List.cons_append, List.nil_append, decode_nine, be24_split]

/-- What decodes is the encoding of the instruction, then the bytes left over: no bit is lost (R95). -/
theorem eq_encode_append_of_decode {bytes rest : List Byte} {i : Instr} (h : decode bytes = .ok (i, rest)) :
    bytes = encode i ++ rest := by
  obtain ⟨b0, b1, b2, b3, b4, b5, b6, b7, b8, rfl, rfl⟩ := decode_cases h
  simp only [encode, addrBytes_be24, List.cons_append, List.nil_append]

theorem length_encode (i : Instr) : (encode i).length = 9 := by
  cases i with
  | cpj a b j => exact Laws.EncodeLength.cpj a b j

/-! ### Enough bytes and too few (R93, R94; log 19) -/

theorem decode_ok_of_length {bytes : List Byte} (h : 9 ≤ bytes.length) : ∃ i rest, decode bytes = .ok (i, rest) := by
  rcases bytes with _ | ⟨b0, _ | ⟨b1, _ | ⟨b2, _ | ⟨b3, _ | ⟨b4, _ | ⟨b5, _ | ⟨b6, _ | ⟨b7, _ | ⟨b8, rest⟩⟩⟩⟩⟩⟩⟩⟩⟩
  case cons.cons.cons.cons.cons.cons.cons.cons.cons => exact ⟨_, _, decode_nine b0 b1 b2 b3 b4 b5 b6 b7 b8 rest⟩
  all_goals simp at h

theorem decode_truncated {bytes : List Byte} (h : bytes.length < 9) : decode bytes = .error .truncated := by
  cases hd : decode bytes with
  | error e => cases e; rfl
  | ok p =>
    rw [eq_encode_append_of_decode hd, List.length_append, length_encode] at h
    omega

/-! ### The 72-bit word -/

/-- Where each byte of a field stands in it, the first one most significant (R91). -/
theorem be24_bytes (b0 b1 b2 : Byte) : (be24 b0 b1 b2).extractLsb' 16 8 = b0 ∧
    (be24 b0 b1 b2).extractLsb' 8 8 = b1 ∧ (be24 b0 b1 b2).extractLsb' 0 8 = b2 := by
  simpa only [addrBytes, List.cons.injEq, and_true] using addrBytes_be24 b0 b1 b2

/-- The nine bytes of the three fields, in order, are the word (R91). -/
theorem be72_be24 (b0 b1 b2 b3 b4 b5 b6 b7 b8 : Byte) :
    be72 (be24 b0 b1 b2) (be24 b3 b4 b5) (be24 b6 b7 b8) = b0 ++ b1 ++ b2 ++ b3 ++ b4 ++ b5 ++ b6 ++ b7 ++ b8 := by
  refine BitVec.eq_of_toNat_eq ?_
  simp only [be72, append_toNat, be24_toNat]
  omega

/-- Splitting the word into its bytes and decoding them reads the word's own fields. -/
theorem decode_wordBytes (w : InstrWord) : decode (wordBytes w) = .ok (decodeWord w, []) := by
  have h : wordBytes w = encode (decodeWord w) ++ [] := (List.append_nil _).symm
  rw [h, decode_encode]

theorem decodeTableWord_eq (nbits w : Nat) : decodeTableWord nbits w = some (decodeWord (tableWord nbits w)) := by
  simp only [decodeTableWord, decode_wordBytes]

theorem fieldA_ofNat (w : Nat) : fieldA (BitVec.ofNat 72 w) = BitVec.ofNat 24 (w / 2 ^ 48) := by
  refine BitVec.eq_of_toNat_eq ?_
  simp only [fieldA, BitVec.extractLsb'_toNat, BitVec.toNat_ofNat, Nat.shiftRight_eq_div_pow]
  omega

theorem fieldB_ofNat (w : Nat) : fieldB (BitVec.ofNat 72 w) = BitVec.ofNat 24 (w / 2 ^ 24 % 2 ^ 24) := by
  refine BitVec.eq_of_toNat_eq ?_
  simp only [fieldB, BitVec.extractLsb'_toNat, BitVec.toNat_ofNat, Nat.shiftRight_eq_div_pow]
  omega

theorem fieldJ_ofNat (w : Nat) : fieldJ (BitVec.ofNat 72 w) = BitVec.ofNat 24 (w % 2 ^ 24) :=
  BitVec.eq_of_toNat_eq (by simp [fieldJ])

/-! ### The obligations -/

/-- Settles O1: the nine bytes encoded are the three bytes of each field, and three bytes assembled are the field. -/
theorem decodeOfEncode : Obligations.DecodeOfEncode := by
  intro i rest _
  exact decode_encode i rest

/-- Settles O2: with nine bytes the decoder answers, and what it answers encodes to the bytes it read; with fewer it
cannot answer, because every encoding is nine bytes long. -/
theorem everyNineBytesAreAnInstruction : Obligations.EveryNineBytesAreAnInstruction := by
  intro bytes
  refine ⟨fun h => ?_, decode_truncated⟩
  obtain ⟨i, rest, hd⟩ := decode_ok_of_length h
  obtain rfl := eq_encode_append_of_decode hd
  have htake : (encode i ++ rest).take 9 = encode i := List.take_left' (length_encode i)
  have hdrop : (encode i ++ rest).drop 9 = rest := List.drop_left' (length_encode i)
  rw [htake, hdrop]
  exact ⟨i, hd, rfl, rfl⟩

/-- Settles O3: each field splits into its three bytes, and the nine bytes in a row are the word whose fields these
are. -/
theorem fieldPositions : Obligations.FieldPositions := by
  intro b0 b1 b2 b3 b4 b5 b6 b7 b8
  exact ⟨_, _, _, decode_nine b0 b1 b2 b3 b4 b5 b6 b7 b8 [], be24_bytes b0 b1 b2, be24_bytes b3 b4 b5,
    be24_bytes b6 b7 b8, _,
    be72_be24 b0 b1 b2 b3 b4 b5 b6 b7 b8, fieldA_be72 _ _ _, fieldB_be72 _ _ _, fieldJ_be72 _ _ _,
    decodeWord_be72 _ _ _⟩

/-- Settles O4: nine bytes in range are three reads in range, and the decoder assembles the same three fields. -/
theorem fetchIsThreeFieldReads : Obligations.FetchIsThreeFieldReads := by
  intro m pc h
  have hsize : Config.memSize = 0x1000000 := rfl
  exact ⟨_, _, _, decode_nine _ _ _ _ _ _ _ _ _ [], Memory.read24_ok m (by omega), Memory.read24_ok m (by omega),
    Memory.read24_ok m (by omega), be24_toNat _ _ _, be24_toNat _ _ _, be24_toNat _ _ _, BitVec.isLt _, BitVec.isLt _,
    BitVec.isLt _⟩

/-- Settles O5: all 72 bits of the table's word are kept, and each field is the quotient and remainder of its bits. -/
theorem tableWordFields : Obligations.TableWordFields := by
  intro w h
  rw [decodeTableWord_eq, tableWord, Nat.mod_eq_of_lt h, decodeWord, fieldA_ofNat, fieldB_ofNat, fieldJ_ofNat]

/-- Settles O6: nine literal bytes each, assembled field by field. -/
theorem decodeVectors : Obligations.DecodeVectors :=
  ⟨decode_nine _ _ _ _ _ _ _ _ _ [], decode_nine _ _ _ _ _ _ _ _ _ [], decode_nine _ _ _ _ _ _ _ _ _ [],
    decode_nine _ _ _ _ _ _ _ _ _ []⟩

end Sys2Proof.Machine

/-! PROOF. The accessors of 20_memory.md: all of them are range-checked by one form, and what a 16-bit write, a load and
a slice do byte by byte. -/

namespace Sys2Proof.Machine

open Sys2Proof.Safety

/-! ### Out of range, and the range check as one form (R54) -/

theorem Memory.read16_error (m : Memory) {addr : Nat} (h : ¬ addr + 2 ≤ Config.memSize) :
    m.read16 addr = .error ⟨addr, 2⟩ := if_neg (by simpa using h)

theorem Memory.write16_error (m : Memory) {addr : Nat} (h : ¬ addr + 2 ≤ Config.memSize) (v : Half) :
    m.write16 addr v = .error ⟨addr, 2⟩ := if_neg (by simpa using h)

theorem Memory.slice_error (m : Memory) {start len : Nat} (h : ¬ start + len ≤ Config.memSize) :
    m.slice start len = .error ⟨start, len⟩ := if_neg (by simpa using h)

/-- The model's check `inRange`, which does without the subtraction, is R54's. -/
theorem rangeChecked_if_inRange {α : Type} (addr n : Nat) (v : α) :
    RangeChecked (if inRange addr n then .ok v else .error ⟨addr, n⟩) addr n := by
  have hsize : Config.memSize = 0x1000000 := rfl
  have hiff : inRange addr n = true ↔ addr + n - 1 ≤ 0xFFFFFF := by
    rw [inRange_iff]
    omega
  unfold RangeChecked
  split
  · exact ⟨v, if_pos (hiff.2 ‹_›)⟩
  · exact if_neg (mt hiff.1 ‹_›)

/-! ### Bytes of the wider accesses -/

theorem beValue_bytesAt_two (m : Memory) (addr : Nat) :
    beValue (m.bytesAt addr 2) = (m.byte addr).toNat * 256 + (m.byte (addr + 1)).toNat := by
  simp [beValue, Memory.bytesAt]

theorem beValue_bytesAt_three (m : Memory) (addr : Nat) : beValue (m.bytesAt addr 3) =
    (m.byte addr).toNat * 65536 + (m.byte (addr + 1)).toNat * 256 + (m.byte (addr + 2)).toNat := by
  simp [beValue, Memory.bytesAt]
  omega

theorem Memory.byte_setBytes_mem (m : Memory) (a : Nat) {bytes : List Byte} {k : Nat} {v : Byte}
    (h : bytes[k]? = some v) : (m.setBytes a bytes).byte (a + k) = v := by
  rw [Memory.byte_setBytes, if_pos (Nat.le_add_right a k), Nat.add_sub_cancel_left, h, Option.getD_some]

theorem Memory.byte_setBytes_outside (m : Memory) {a x : Nat} {bytes : List Byte}
    (h : x < a ∨ a + bytes.length ≤ x) : (m.setBytes a bytes).byte x = m.byte x := by
  rw [Memory.byte_setBytes]
  split
  · rw [List.getElem?_eq_none (by omega), Option.getD_none]
  · rfl

/-! ### The obligations -/

/-- Settles O8: each accessor is its range check, and the range check is R54's. -/
theorem everyAccessIsRangeChecked : Obligations.EveryAccessIsRangeChecked := by
  intro m addr v w
  exact ⟨rangeChecked_if_inRange addr 1 _, rangeChecked_if_inRange addr 2 _, rangeChecked_if_inRange addr 3 _,
    rangeChecked_if_inRange addr 1 _, rangeChecked_if_inRange addr 2 _, fun len _ => rangeChecked_if_inRange addr len _⟩

/-- Settles O9: in range the read is the concatenation of its bytes, whose value is their big-endian sum. -/
theorem readsAreBigEndian : Obligations.ReadsAreBigEndian := by
  intro m addr
  have hsize : Config.memSize = 0x1000000 := rfl
  refine ⟨fun h => ⟨_, Memory.read16_ok m (by omega), be16_toNat _ _, ?_⟩, fun h => Memory.read16_error m (by omega),
    fun h => ⟨_, Memory.read24_ok m (by omega), be24_toNat _ _ _, ?_⟩, fun h => Memory.read24_error m (by omega)⟩
  · rw [be16_toNat, beValue_bytesAt_two]
  · rw [be24_toNat, beValue_bytesAt_three]

/-- Settles O11: in range the memory written is two `setByte`s, the second beside the first. -/
theorem halfWriteStoresTwoBytes : Obligations.HalfWriteStoresTwoBytes := by
  intro m addr v
  have hsize : Config.memSize = 0x1000000 := rfl
  split
  · exact Memory.write16_error m (by omega) v
  · refine ⟨_, Memory.write16_ok m (by omega) v, ?_, ?_, fun x hx hx' => ?_⟩
    · simp [Memory.byte_setByte, hiByte]
    · exact Memory.byte_setByte_same _ _ _
    · simp [Memory.byte_setByte, hx, hx']

/-- Settles O13: whatever the width of the write, the bytes are in memory one by one, and a read of another width
assembles them again. -/
theorem mixedWidthsSeePlainBytes : Obligations.MixedWidthsSeePlainBytes := by
  have hsize : Config.memSize = 0x1000000 := rfl
  refine ⟨fun m addr v h => ⟨_, Memory.write16_ok m (by omega) v, ?_, Memory.read8_setByte_same _ (by omega) _⟩,
    fun m addr b0 b1 h => ⟨_, _, Memory.write8_ok m (by omega) b0, Memory.write8_ok _ (by omega) b1, ?_⟩,
    fun m addr b0 b1 b2 h => ⟨_, _, _, Memory.write8_ok m (by omega) b0, Memory.write8_ok _ (by omega) b1,
      Memory.write8_ok _ (by omega) b2, ?_⟩,
    fun m => ⟨_, Memory.write16_ok m (by decide) _, ?_, Memory.read8_setByte_same _ (by decide) _, ?_⟩⟩
  · rw [Memory.read8_ok _ (by omega)]
    simp [Memory.byte_setByte, hiByte]
  · rw [Memory.read16_ok _ (by omega)]
    simp [Memory.byte_setByte, be16]
  · rw [Memory.read24_ok _ (by omega)]
    simp [Memory.byte_setByte, be24]
  · rw [Memory.read8_ok _ (by decide)]
    simp [Memory.byte_setByte, hiByte]
  · rw [Memory.read24_ok _ (by decide)]
    simp [Memory.byte_setByte, be24, hiByte, loByte]

/-- Settles O14: a load that fits is `setBytes`, which puts byte `k` at `offset + k` and leaves the bytes outside. -/
theorem loadCopiesBytes : Obligations.LoadCopiesBytes := by
  intro m offset bytes
  have hsize : Config.memSize = 0x1000000 := rfl
  split
  · exact Memory.load_error m (by omega)
  · exact ⟨_, Memory.load_ok m (by omega), fun k v => Memory.byte_setBytes_mem m offset,
      fun x => Memory.byte_setBytes_outside m⟩

/-- Settles O15: a slice in range is `bytesAt`, whose length and elements are known. -/
theorem sliceReturnsBytes : Obligations.SliceReturnsBytes := by
  intro m start len
  have hsize : Config.memSize = 0x1000000 := rfl
  split
  · exact Memory.slice_error m (by omega)
  · exact ⟨_, Memory.slice_ok m (by omega), Memory.length_bytesAt m start len, fun k => Memory.getElem?_bytesAt m⟩

end Sys2Proof.Machine

/-! PROOF. One instruction cycle (40_copy_jump.md): the fetch fault, the step as exec of the decoded instruction, and
what a store does to this cycle's instruction and to the next one's. -/

namespace Sys2Proof.Machine

open Sys2Proof.Safety

/-! ### The fetch fault (R113) -/

/-- The first field read that fails: J's up to 0xFFFFFA, B's up to 0xFFFFFD, A's above (R113, R185). -/
theorem fetchWord_error (m : Memory) {pc : Addr} (h : 0xFFFFF8 ≤ pc.toNat) :
    fetchWord m pc = .error ⟨if pc.toNat ≤ 0xFFFFFA then pc.toNat + 6
      else if pc.toNat ≤ 0xFFFFFD then pc.toNat + 3 else pc.toNat, 3⟩ := by
  have hsize : Config.memSize = 0x1000000 := rfl
  unfold fetchWord
  by_cases hA : pc.toNat ≤ 0xFFFFFD
  · rw [Memory.read24_ok m (addr := pc.toNat) (by omega)]
    by_cases hB : pc.toNat ≤ 0xFFFFFA
    · rw [Memory.read24_ok m (addr := pc.toNat + 3) (by omega), Memory.read24_error m (addr := pc.toNat + 6) (by omega),
        if_pos hB]
    · rw [Memory.read24_error m (addr := pc.toNat + 3) (by omega), if_neg hB, if_pos hA]
  · rw [Memory.read24_error m (addr := pc.toNat) (by omega), if_neg (by omega), if_neg hA]

theorem fetchWord_error_iff (m : Memory) (pc : Addr) : (∃ e, fetchWord m pc = .error e) ↔ 0xFFFFF8 ≤ pc.toNat := by
  refine ⟨fun ⟨e, he⟩ => Nat.le_of_not_lt fun hp => ?_, fetchWord_fails m⟩
  rw [fetchWord_ok m (by omega)] at he
  cases he

/-! ### A step is exec of the instruction at `PC` -/

theorem exec_next (i : Instr) (s : State) : ∃ t, exec i s = .next t := by
  cases i with
  | cpj a b j => exact ⟨_, exec_cpj a b j s⟩

/-- A cycle whose fetch answers runs exec of the decoded word, then counts (R111, R132). -/
theorem step_of_fetchWord {s t : State} {w : InstrWord} (hs : Running s) (hw : fetchWord s.mem s.pc = .ok w)
    (ht : exec (decodeWord w) s = .next t) : step s = .next (completeCycle t) := by
  rw [step_running hs, engineCycle, hw]
  simp only [ht]

/-- The instruction that the nine bytes at `PC` decode to is the one the fetch finds. -/
theorem decodeWord_of_decode {m : Memory} {pc : Addr} {i : Instr} (hp : pc.toNat ≤ 0xFFFFF7)
    (hd : decode (m.bytesAt pc.toNat 9) = .ok (i, [])) : ∃ w, fetchWord m pc = .ok w ∧ decodeWord w = i := by
  have hw := fetchWord_ok m hp
  rw [decode_bytesAt m hw] at hd
  cases hd
  exact ⟨_, hw, rfl⟩

/-- The step of a running frame at a CPJ: one byte copied, `PC` at J, the cycle counted. -/
theorem step_of_decode_cpj {s : State} {a b j : Addr} (hs : Running s) (hp : s.pc.toNat ≤ 0xFFFFF7)
    (hd : decode (s.mem.bytesAt s.pc.toNat 9) = .ok (.cpj a b j, [])) :
    step s = .next (completeCycle
      ((s.withMem (s.mem.setByte b.toNat (s.mem.byte a.toNat))).withPc j)) := by
  obtain ⟨w, hw, hi⟩ := decodeWord_of_decode hp hd
  exact step_of_fetchWord hs hw (hi ▸ exec_cpj a b j s)

theorem Memory.bytesAt_eq_map (m : Memory) (a n : Nat) :
    m.bytesAt a n = (List.range n).map fun k => m.byte (a + k) := by
  refine List.ext_getElem? fun k => ?_
  rcases Nat.lt_or_ge k n with hk | hk
  · rw [Memory.getElem?_bytesAt m hk]
    simp [hk]
  · rw [List.getElem?_eq_none (by simpa using hk), List.getElem?_eq_none (by simpa using hk)]

/-! ### A placed word -/

/-- Nine bytes of a word, stored at an address that can be fetched from, are fetched as the word (log 18). -/
theorem fetchWord_setBytes (m : Memory) {pc : Addr} (h : pc.toNat ≤ 0xFFFFF7) (w : InstrWord) :
    fetchWord (m.setBytes pc.toNat (wordBytes w)) pc = .ok w := by
  rw [fetchWord_ok _ h]
  simp [Memory.byte_setBytes, wordBytes, addrBytes, be24_split, be72_fields]

/-! ### The obligations -/

/-- Settles O16: after CPJ the byte at B is the one just stored there. -/
theorem cpjCopiesAndJumps : Obligations.CpjCopiesAndJumps := by
  intro a b j s
  exact ⟨_, exec_cpj a b j s, Memory.byte_setByte_same _ _ _, rfl⟩

/-- Settles O17: one `setByte` at B, and beside it only `PC`. -/
theorem cpjFrame : Obligations.CpjFrame := by
  intro a b j s t h
  rw [exec_cpj] at h
  cases h
  exact ⟨fun _ hx => Memory.byte_setByte_ne s.mem _ hx, rfl, rfl, rfl, rfl, rfl, rfl⟩

/-- Settles O19: a 24-bit address is in range for one byte, and the fetch at J fails exactly from 0xFFFFF8 on. -/
theorem dataAccessesNeverFault : Obligations.DataAccessesNeverFault := by
  intro a b j d s
  exact ⟨⟨_, loadOperand_eq s.mem a⟩, ⟨_, storeOperand_eq s.mem b d⟩, _, exec_cpj a b j s, rfl, fetchWord_error_iff _ j⟩

/-- Settles O20: the decoder and the fetch find the same instruction at `PC`. -/
theorem stepRunsTheDecodedInstruction : Obligations.StepRunsTheDecodedInstruction := by
  intro s i hs hp _ hd
  obtain ⟨w, hw, rfl⟩ := decodeWord_of_decode hp hd
  obtain ⟨t, ht⟩ := exec_next (decodeWord w) s
  simp only [step_of_fetchWord hs hw ht, ht]

/-- Settles O21: the fetch answers up to 0xFFFFF7; above it the step takes the error of the first read that fails. -/
theorem fetchFaultEntersFaulted : Obligations.FetchFaultEntersFaulted := by
  intro s hs
  refine ⟨fun hp => ⟨_, fetchWord_ok s.mem hp⟩, fun hp => ?_⟩
  exact step_of_cycle_error hs (cycle_eq_error_iff.2 (fetchWord_error s.mem hp))

/-- Settles O23: the fields are those decoded before the write, wherever B lies. -/
theorem ownInstructionWriteUsesOldFields : Obligations.OwnInstructionWriteUsesOldFields := by
  intro s a b j hs hp hd _
  exact ⟨_, step_of_decode_cpj hs hp hd, by simp, by simp⟩

/-- Settles O24: the step leaves a frame with `PC` at J and memory with the copied byte, and the next step decodes that
memory's nine bytes at J. -/
theorem storeIsSeenByTheNextFetch : Obligations.StoreIsSeenByTheNextFetch := by
  intro s a b j hs hc hp hj hd
  have hrun : ((s.withMem (s.mem.setByte b.toNat (s.mem.byte a.toNat))).withPc j).mode = .run := hs.1
  have hstep := step_of_decode_cpj hs hp hd
  rw [completeCycle_more hrun hc] at hstep
  obtain ⟨w, hw⟩ : ∃ w, fetchWord (s.mem.setByte b.toNat (s.mem.byte a.toNat)) j = .ok w := ⟨_, fetchWord_ok _ hj⟩
  have hnext := decode_bytesAt _ hw
  refine ⟨_, decodeWord w, hstep, hrun, rfl, ?_, fun hreset => ?_⟩
  · simpa only [Memory.bytesAt_eq_map, Memory.byte_setByte] using hnext
  · exact stepRunsTheDecodedInstruction _ _ ⟨hrun, hc, hreset⟩ hj rfl hnext

/-- Settles O26: the cycle copies and jumps; counting it ends the frame exactly when it is the 65,536th. -/
theorem cycleCountsAndFrameEnds : Obligations.CycleCountsAndFrameEnds := by
  intro s hs hp
  obtain ⟨m, p, hcycle⟩ := cycle_ok s.mem hp
  have hrun : ((s.withMem m).withPc p).mode = .run := hs.1
  refine ⟨_, step_of_cycle_ok hs hcycle, ?_⟩
  split
  · rename_i hlast
    rw [completeCycle_last hrun (Nat.le_of_eq hlast.symm)]
    exact ⟨rfl, rfl, rfl, rfl, rfl, rfl⟩
  · rename_i hmore
    rw [completeCycle_more hrun (Nat.lt_of_le_of_ne hs.2.1 hmore)]
    exact ⟨rfl, rfl, rfl, rfl, hrun, rfl⟩

/-- Settles O54: the word stands where `PC` is, a cycle is left and no RESET is due, so the step fetches and runs it. -/
theorem placedWordIsRunNext : Obligations.PlacedWordIsRunNext := by
  intro s nbits w i hi
  rw [decodeTableWord_eq] at hi
  cases hi
  have hp := placeAt_fetchable s
  exact stepRunsTheDecodedInstruction _ _ (placeWord_running s _) hp rfl
    (decode_bytesAt _ (fetchWord_setBytes s.mem hp _))

end Sys2Proof.Machine

/-! PROOF. The host operations (42_mmio_interface.md): ROM load, keyboard write, frame request, the two samplings and
the dump, each as one equation of a step from MODE = IDLE, and what the keyboard and the audio sink make of the bytes. -/

namespace Sys2Proof.Machine

/-! ### One step for each operation -/

theorem step_loadRom {s : State} {rom : List Byte} {rest : List HostOp} (hm : s.mode = .idle)
    (hr : s.requests = .loadRom rom :: rest) : step s = loadRom rom { s with requests := rest } :=
  step_request hm hr (by simp)

theorem step_keyWrite {s : State} {mask : Half} {rest : List HostOp} (hm : s.mode = .idle)
    (hr : s.requests = .keyWrite mask :: rest) :
    step s = .next { s with mem := (s.mem.setByte 0 (hiByte mask)).setByte 1 (loByte mask), keyWritten := some mask,
                            requests := rest } :=
  (step_request hm hr (by simp)).trans (keyWrite_eq mask _)

theorem step_frameTick {s : State} {rest : List HostOp} (hm : s.mode = .idle) (hr : s.requests = .frameTick :: rest) :
    step s = frameTick { s with requests := rest } :=
  step_request hm hr (by simp)

theorem step_screenSample {s : State} {rest : List HostOp} (hm : s.mode = .idle)
    (hr : s.requests = .screenSample :: rest) :
    step s = .next { s with requests := rest, replies := .screen (s.mem.bytesAt
      ((s.mem.byte Config.scrAddr).toNat * Config.screenPageBytes) Config.screenPageBytes) :: s.replies } := by
  rw [step_request hm hr (by simp), hostStep, screenSample_eq, State.reply]

theorem step_audioSample {s : State} {rest : List HostOp} (hm : s.mode = .idle)
    (hr : s.requests = .audioSample :: rest) :
    step s = .next { s with requests := rest, replies := .audio (s.mem.bytesAt
      ((be16 (s.mem.byte Config.audAddr) (s.mem.byte (Config.audAddr + 1))).toNat * Config.audioPageBytes)
      Config.audioPageBytes) :: s.replies } := by
  rw [step_request hm hr (by simp), hostStep, audioSample_eq, State.reply]

theorem step_dump {s : State} {rest : List HostOp} (hm : s.mode = .idle) (hr : s.requests = .dump :: rest) :
    step s = .next { s with requests := rest, replies := .dump (s.mem.bytesAt 0 Config.memSize) :: s.replies } := by
  rw [step_request hm hr (by simp), hostStep, dump_eq, State.reply]

/-- No frame starts after a failed load, nor before its KEY_WRITE (R182, U11). -/
theorem frameTick_refused {s : State} (h : s.launch = .refused ∨ s.keyWritten = none) :
    frameTick s = .refused (.notEnabled .frameTick) := if_pos h

theorem frameTick_starts {s : State} (hl : s.launch ≠ .refused) (hk : s.keyWritten ≠ none) :
    frameTick s = .next { s with
      pc := pcf s.mem, mode := .run, cycles := 0, launch := .started, keyWritten := none } := by
  rw [frameTick, if_neg (not_or.2 ⟨hl, hk⟩), frameStart_eq]

/-! ### ROM load (R150, R182) -/

theorem loadRom_fits {s : State} {rom : List Byte} (hl : s.launch = .fresh) (h : rom.length ≤ Config.memSize) :
    loadRom rom s = .next { s with mem := s.mem.setBytes 0 rom, launch := .loaded, keyWritten := none } := by
  rw [loadRom, if_pos hl, Memory.load_ok s.mem ((Nat.zero_add _).trans_le h)]

theorem loadRom_oversize {s : State} {rom : List Byte} (hl : s.launch = .fresh) (h : Config.memSize < rom.length) :
    loadRom rom s = .next { s.reply (.loadSize ⟨0, rom.length⟩) with launch := .refused } := by
  rw [loadRom, if_pos hl, Memory.load_error s.mem (by omega)]

/-- A canonical memory lists nothing beyond 0xFFFFFF (R50). -/
theorem Memory.byte_beyond {m : Memory} (h : m.wf) {x : Nat} (hx : Config.memSize ≤ x) :
    m.byte x = Memory.unlisted :=
  Memory.byte_of_forall_ne fun c hc => Nat.ne_of_lt (Nat.lt_of_lt_of_le (h.2 c hc).1 hx)

/-- All of memory written over any memory restores it (R151). -/
theorem Memory.setBytes_bytesAt {m n : Memory} (hm : m.wf) (hn : n.wf) :
    n.setBytes 0 (m.bytesAt 0 Config.memSize) = m := by
  have hlen : (m.bytesAt 0 Config.memSize).length = Config.memSize := Memory.length_bytesAt m 0 _
  have hwf : (n.setBytes 0 (m.bytesAt 0 Config.memSize)).wf := Memory.wf_setBytes _ hn (by omega)
  refine Memory.ext_of_wf hwf hm fun x => ?_
  rcases Nat.lt_or_ge x Config.memSize with hx | hx
  · rw [Memory.byte_setBytes, if_pos (Nat.zero_le x), Nat.sub_zero, Memory.getElem?_bytesAt m hx, Nat.zero_add,
      Option.getD_some]
  · rw [Memory.byte_beyond hwf hx, Memory.byte_beyond hm hx]

/-! ### The mask of the keys held (R153) -/

theorem getLsbD_foldl_twoPow (held : List (Fin Config.keyCount)) (mask : Half) (i : Fin Config.keyCount) :
    (held.foldl (fun mask key => mask ||| BitVec.twoPow 16 key.val) mask).getLsbD i.val =
      (mask.getLsbD i.val || decide (i ∈ held)) := by
  induction held generalizing mask with
  | nil => simp
  | cons key held ih =>
    have hbit : (BitVec.twoPow 16 key.val).getLsbD i.val = decide (i = key) := by
      simp [Fin.ext_iff]
    rw [List.foldl_cons, ih, BitVec.getLsbD_or, hbit, Bool.or_assoc]
    simp

theorem getLsbD_keyMask (held : List (Fin Config.keyCount)) (i : Fin Config.keyCount) :
    (keyMask held).getLsbD i.val = decide (i ∈ held) := by
  rw [keyMask, getLsbD_foldl_twoPow, BitVec.getLsbD_zero, Bool.false_or]

/-! ### The audio sink (R163, R164) -/

theorem sample_eq (v : Byte) : sample v = if v.toNat ≤ 127 then (v.toNat : Int) else (v.toNat : Int) - 256 := by
  have := v.isLt
  rw [sample, BitVec.toInt]
  split <;> split <;> omega

theorem silent_iff (page : List Byte) : silent page = true ↔ ∀ v ∈ page, v = 0x00#8 := by
  simp [silent]

/-! ### The obligations -/

/-- Settles O32: byte `x` of the memory loaded is that of the ROM where it has one. -/
theorem loadRomPlacesTheRom : Obligations.LoadRomPlacesTheRom := by
  intro s rom rest hm hl hr hlen
  refine ⟨_, (step_loadRom hm hr).trans (loadRom_fits hl hlen), fun x => ?_⟩
  rw [Memory.byte_setBytes, if_pos (Nat.zero_le x), Nat.sub_zero]

/-- Settles O33: the load reports and changes only the launch, and with the launch refused no FRAME_TICK is enabled. -/
theorem oversizeRomRefusesTheLaunch : Obligations.OversizeRomRefusesTheLaunch := by
  intro s rom rest hm hl hr hlen
  refine ⟨_, (step_loadRom hm hr).trans (loadRom_oversize hl hlen), rfl, hm, rfl, rfl, rfl, fun later key => ?_⟩
  refine (step_frameTick ?_ rfl).trans (frameTick_refused (.inl rfl))
  exact hm

/-- Settles O34: LOAD_ROM is enabled only while the launch is fresh. -/
theorem secondLoadHasNoStep : Obligations.SecondLoadHasNoStep := by
  intro s rom rest hm hl hr
  rw [step_loadRom hm hr, loadRom, if_neg hl]

/-- Settles O55: FRAME_TICK is not enabled before the KEY_WRITE. -/
theorem frameNeedsAKeyWrite : Obligations.FrameNeedsAKeyWrite := by
  intro s rest hm hr hk
  exact (step_frameTick hm hr).trans (frameTick_refused (.inr hk))

/-- Settles O35: two `setByte`s, at 0 and at 1. -/
theorem keyWriteSetsKey : Obligations.KeyWriteSetsKey := by
  intro s mask rest hm hr
  refine ⟨_, step_keyWrite hm hr, ?_, Memory.byte_setByte_same _ _ _, fun x hx => ?_,
    Memory.read16_setByte_setByte s.mem (by decide) mask⟩
  · rw [Memory.byte_setByte_ne _ _ (by decide), Memory.byte_setByte_same]
    rfl
  · rw [Memory.byte_setByte_ne _ _ (by omega), Memory.byte_setByte_ne _ _ (by omega)]

/-- Settles O36: the byte at 1 is the mask's bits 0 to 7, the byte at 0 its bits 8 to 15, and a bit of the mask tells
whether its key is held. -/
theorem heldKeysAreSeenInKey : Obligations.HeldKeysAreSeenInKey := by
  intro s held rest i hm hr
  obtain ⟨m, hstep, h0, h1, _, _⟩ := keyWriteSetsKey s (keyMask held) rest hm hr
  refine ⟨_, hstep, ?_⟩
  rw [← getLsbD_keyMask held i, h0, h1]
  have hi : i.val < 16 := i.isLt
  split
  · rw [BitVec.getLsbD_extractLsb', decide_eq_true ‹_›, Bool.true_and, Nat.zero_add]
  · rw [BitVec.getLsbD_extractLsb', decide_eq_true (by omega), Bool.true_and, Nat.add_sub_cancel' (by omega)]

/-- Settles O37: byte `k` of the slice stands at `SCR × 65,536 + k`, the value of SCR and `k` concatenated. -/
theorem screenSampleReturnsThePage : Obligations.ScreenSampleReturnsThePage := by
  intro s rest hm hr
  refine ⟨_, step_screenSample hm hr, Memory.length_bytesAt _ _ _, fun k => ?_⟩
  have haddr : (s.mem.byte 0x000005 ++ k).toNat =
      (s.mem.byte Config.scrAddr).toNat * Config.screenPageBytes + k.toNat := append_toNat _ _
  refine ⟨?_, haddr, Nat.le_of_lt_succ (BitVec.isLt _)⟩
  rw [Memory.getElem?_bytesAt _ k.isLt, haddr]

/-- Settles O38: byte `k` of the slice stands at `AUD × 256 + k`, the value of AUD and `k` concatenated. -/
theorem audioSampleReturnsThePage : Obligations.AudioSampleReturnsThePage := by
  intro s rest hm hr
  refine ⟨_, _, step_audioSample hm hr, Memory.read16_ok s.mem (by decide), Memory.length_bytesAt _ _ _, fun k => ?_⟩
  have haddr : (be16 (s.mem.byte Config.audAddr) (s.mem.byte (Config.audAddr + 1)) ++ k).toNat =
      (be16 (s.mem.byte Config.audAddr) (s.mem.byte (Config.audAddr + 1))).toNat * Config.audioPageBytes + k.toNat :=
    append_toNat _ _
  refine ⟨?_, haddr, Nat.le_of_lt_succ (BitVec.isLt _)⟩
  rw [Memory.getElem?_bytesAt _ k.isLt, haddr]

/-- Settles O39: the slice from 0 of all bytes. -/
theorem dumpReturnsAllOfMemory : Obligations.DumpReturnsAllOfMemory := by
  intro s rest hm hr
  refine ⟨_, step_dump hm hr, Memory.length_bytesAt _ _ _, fun a => ?_⟩
  rw [Memory.getElem?_bytesAt s.mem a.isLt, Nat.zero_add]

/-- Settles O40: the dump is all of memory, it fits, and loaded over canonical memory it restores the one dumped. -/
theorem dumpReloadsAsARom : Obligations.DumpReloadsAsARom := by
  intro s t bytes rest later hs hm hr hdump ht htm htl htr
  rw [step_dump hm hr] at hdump
  simp only [Host.Outcome.next.injEq, State.mk.injEq, List.cons.injEq, Reply.dump.injEq, true_and, and_true] at hdump
  subst hdump
  have hfits := loadRom_fits (s := { t with requests := later }) htl (Nat.le_of_eq (Memory.length_bytesAt s.mem 0 _))
  rw [step_loadRom htm htr, hfits, Memory.setBytes_bytesAt hs ht]

/-- Settles O42: what is enqueued is the page sample by sample. -/
theorem samplesAreTwosComplement : Obligations.SamplesAreTwosComplement := by
  intro page samples h
  unfold enqueued at h
  split at h
  · cases h
  · cases h
    refine ⟨List.length_map _, fun k v hv => ?_⟩
    rw [List.getElem?_map, hv, Option.map_some, sample_eq]

/-- Settles O43: nothing is enqueued exactly for a silent page, and a page is silent when all its bytes are zero. -/
theorem silenceIsNotEnqueued : Obligations.SilenceIsNotEnqueued := by
  intro page
  have hall : (∀ v ∈ page, v = 0x00#8) ↔ ∀ (k : Nat) (v : Byte), page[k]? = some v → v = 0x00#8 := by
    simp only [List.mem_iff_getElem?]
    exact ⟨fun h k v hv => h v ⟨k, hv⟩, fun h v ⟨k, hv⟩ => h k v hv⟩
  rw [← hall, ← silent_iff]
  simp [enqueued]

end Sys2Proof.Machine

/-! PROOF. The frame sequencer (41_frame_sequencer.md): the frame start, and a whole frame as the iterated function
`cycle`, by induction on the number of cycles. -/

namespace Sys2Proof.Machine

open Sys2Proof.Safety

/-! ### Runs in parts -/

theorem run_of_step {s t : State} (h : step s = .next t) (k : Nat) : core.run (k + 1) s = core.run k t := by
  rw [run_succ, h]

theorem run_one_of_step {s t : State} (h : step s = .next t) : core.run 1 s = .next t := by
  rw [run_of_step h, run_zero]

/-- A run of `j + k` steps is a run of `k` steps from where the first `j` end. -/
theorem run_add {s t : State} {j : Nat} (h : core.run j s = .next t) (k : Nat) : core.run (j + k) s = core.run k t := by
  induction j generalizing s with
  | zero =>
    cases h
    rw [Nat.zero_add]
  | succ j ih =>
    rw [Nat.add_right_comm, run_succ]
    rw [run_succ] at h
    cases hs : step s with
    | next u =>
      rw [hs] at h
      exact ih h
    | fault r => rw [hs] at h; cases h
    | refused r => rw [hs] at h; cases h

/-! ### Iterated cycles (R132, R134) -/

theorem cyclesFrom_of_cycle {m m' : Memory} {pc pc' : Addr} (h : cycle m pc = .ok (m', pc')) (k : Nat) :
    cyclesFrom (k + 1) m pc = cyclesFrom k m' pc' := by
  rw [cyclesFrom, h]

theorem cyclesFrom_succ_ok {k : Nat} {m : Memory} {pc : Addr} {r : Memory × Addr}
    (h : cyclesFrom (k + 1) m pc = .ok r) : ∃ m' pc', cycle m pc = .ok (m', pc') ∧ cyclesFrom k m' pc' = .ok r := by
  cases hc : cycle m pc with
  | error e =>
    rw [cyclesFrom, hc] at h
    cases h
  | ok q => exact ⟨q.1, q.2, rfl, cyclesFrom_of_cycle hc k ▸ h⟩

/-- The last of `k + 1` cycles, apart. -/
theorem cyclesFrom_last {k : Nat} {m : Memory} {pc : Addr} {r : Memory × Addr}
    (h : cyclesFrom (k + 1) m pc = .ok r) : ∃ m' pc', cyclesFrom k m pc = .ok (m', pc') ∧ cycle m' pc' = .ok r := by
  induction k generalizing m pc with
  | zero =>
    obtain ⟨m', pc', hc, hr⟩ := cyclesFrom_succ_ok h
    cases hr
    exact ⟨m, pc, rfl, hc⟩
  | succ k ih =>
    obtain ⟨m', pc', hc, hr⟩ := cyclesFrom_succ_ok h
    rw [cyclesFrom_of_cycle hc]
    exact ih hr

/-- Cycles that end in an error: some of them complete, and the next one raises it. -/
theorem cyclesFrom_error {n : Nat} {m : Memory} {pc : Addr} {e : OutOfRange} (h : cyclesFrom n m pc = .error e) :
    ∃ k < n, ∃ m' pc', cyclesFrom k m pc = .ok (m', pc') ∧ cycle m' pc' = .error e := by
  induction n generalizing m pc with
  | zero => cases h
  | succ n ih =>
    cases hc : cycle m pc with
    | error e' =>
      rw [cyclesFrom, hc] at h
      cases h
      exact ⟨0, Nat.succ_pos n, m, pc, rfl, hc⟩
    | ok q =>
      rw [cyclesFrom_of_cycle hc] at h
      obtain ⟨k, hk, m', pc', hok, herr⟩ := ih h
      exact ⟨k + 1, Nat.succ_lt_succ hk, m', pc', (cyclesFrom_of_cycle hc k).trans hok, herr⟩

/-! ### The cycles of a frame -/

/-- While no RESET that arrives within a frame stands first, every state of the frame is `Running`. -/
theorem running_of_undisturbed {s : State} (hm : s.mode = .run) (hu : undisturbed s.requests = true)
    (hc : s.cycles < Config.cyclesPerFrame) : Running s := by
  refine ⟨hm, hc, ?_⟩
  unfold resetDue
  split
  · rename_i fromCycle rest hr
    have hle : Config.cyclesPerFrame ≤ fromCycle := by simpa [undisturbed, hr] using hu
    exact decide_eq_false (not_or.2 ⟨not_not.2 hm, by omega⟩)
  · rfl

/-- A cycle that is not the frame's last one. -/
theorem step_of_cycle_more {s : State} {m : Memory} {p : Addr} (hs : Running s) (hc : cycle s.mem s.pc = .ok (m, p))
    (hmore : s.cycles + 1 < Config.cyclesPerFrame) :
    step s = .next { s with mem := m, pc := p, cycles := s.cycles + 1 } := by
  rw [step_of_cycle_ok hs hc, completeCycle_more (s := (s.withMem m).withPc p) hs.1 hmore]
  rfl

/-- The frame's last cycle. -/
theorem step_of_cycle_last {s : State} {m : Memory} {p : Addr} (hs : Running s) (hc : cycle s.mem s.pc = .ok (m, p))
    (hlast : s.cycles + 1 = Config.cyclesPerFrame) :
    step s = .next { s with mem := m, pc := p, mode := .idle, cycles := Config.cyclesPerFrame,
                            replies := .frameDone :: s.replies } := by
  rw [step_of_cycle_ok hs hc, completeCycle_last (s := (s.withMem m).withPc p) hs.1 (Nat.le_of_eq hlast.symm), ← hlast]
  rfl

/-- While a cycle of the frame is left over, `k` steps make the memory and `PC` of `cyclesFrom k` and count `k`. -/
theorem run_cyclesFrom {k : Nat} {s : State} {m' : Memory} {pc' : Addr} (hm : s.mode = .run)
    (hu : undisturbed s.requests = true) (hk : s.cycles + k < Config.cyclesPerFrame)
    (h : cyclesFrom k s.mem s.pc = .ok (m', pc')) :
    core.run k s = .next { s with mem := m', pc := pc', cycles := s.cycles + k } := by
  induction k generalizing s with
  | zero =>
    cases h
    rfl
  | succ k ih =>
    obtain ⟨m, p, hc, hr⟩ := cyclesFrom_succ_ok h
    have hcount : s.cycles + 1 + k = s.cycles + (k + 1) := Nat.add_right_comm _ _ _
    have hrest := ih (s := { s with mem := m, pc := p, cycles := s.cycles + 1 }) hm hu (hcount ▸ hk) hr
    rw [run_of_step (step_of_cycle_more (running_of_undisturbed hm hu (by omega)) hc (by omega)), hrest, hcount]

/-- A frame whose cycles do not fault: the last step is the last cycle's and the frame's end (R133). -/
theorem run_frame_completes {k : Nat} {s : State} {m' : Memory} {pc' : Addr} (hm : s.mode = .run)
    (hu : undisturbed s.requests = true) (hk : s.cycles + (k + 1) = Config.cyclesPerFrame)
    (h : cyclesFrom (k + 1) s.mem s.pc = .ok (m', pc')) :
    core.run (k + 1) s = .next { s with mem := m', pc := pc', mode := .idle, cycles := Config.cyclesPerFrame,
                                        replies := .frameDone :: s.replies } := by
  obtain ⟨m, p, hfirst, hlast⟩ := cyclesFrom_last h
  rw [run_add (run_cyclesFrom hm hu (by omega) hfirst) 1]
  exact run_one_of_step (step_of_cycle_last (running_of_undisturbed hm hu (by dsimp only; omega)) hlast hk)

/-- A frame whose cycles fault: the step after the completed ones takes the fatal error (R134). -/
theorem run_frame_faults {k : Nat} {s : State} {m' : Memory} {pc' : Addr} {e : OutOfRange} (hm : s.mode = .run)
    (hu : undisturbed s.requests = true) (hk : s.cycles + k < Config.cyclesPerFrame)
    (h : cyclesFrom k s.mem s.pc = .ok (m', pc')) (he : cycle m' pc' = .error e) :
    core.run (k + 1) s = .next { s with mem := m', pc := pc', mode := .faulted, cycles := s.cycles + k,
                                        replies := .fatal e :: s.replies } := by
  rw [run_add (run_cyclesFrom hm hu hk h) 1]
  refine run_one_of_step (step_of_cycle_error ?_ he)
  exact running_of_undisturbed hm hu hk

/-! ### The frame start (R131) -/

theorem Memory.read24_pcf (m : Memory) : m.read24 Config.pcfAddr = .ok (pcf m) :=
  Memory.read24_ok m (by decide)

theorem step_frameStart {s : State} {rest : List HostOp} (hm : s.mode = .idle) (hr : s.requests = .frameTick :: rest)
    (hl : s.launch ≠ .refused) (hk : s.keyWritten ≠ none) :
    step s = .next { s with pc := pcf s.mem, mode := .run, cycles := 0, launch := .started, keyWritten := none,
                            requests := rest } :=
  (step_frameTick hm hr).trans (frameTick_starts hl hk)

/-! ### The obligations -/

/-- Settles O25: the read of PCF is in range. -/
theorem frameStartLoadsPcFromPcf : Obligations.FrameStartLoadsPcFromPcf := by
  intro s rest hm hr hl hk
  exact ⟨_, Memory.read24_pcf s.mem, step_frameStart hm hr hl hk⟩

/-- Settles O27: the frame start, then all cycles of the frame from memory and PCF. -/
theorem frameTickIsIteratedCycle : Obligations.FrameTickIsIteratedCycle := by
  intro s rest p pc' m' hm hr hu hl hk hp hc
  rw [Memory.read24_pcf] at hp
  cases hp
  rw [run_of_step (step_frameStart hm hr hl hk)]
  exact run_frame_completes (k := 65535) rfl hu (Nat.zero_add _) hc

/-- Settles O28: the frame start, the completed cycles, and the one that faults. -/
theorem faultStopsTheFrame : Obligations.FaultStopsTheFrame := by
  intro s rest p pc' m' k e hm hr hu hl hk hp hlt hc he
  rw [Memory.read24_pcf] at hp
  cases hp
  rw [run_of_step (step_frameStart hm hr hl hk), run_frame_faults rfl hu ((Nat.zero_add k).symm ▸ hlt) hc he,
    Nat.zero_add]

/-- Settles O29: the iterated cycles answer, and the frame completes, or they end in an error, and it faults. -/
theorem everyFrameCompletesOrFaults : Obligations.EveryFrameCompletesOrFaults := by
  intro s rest hm hr hu hl hk
  cases hc : cyclesFrom Config.cyclesPerFrame s.mem (pcf s.mem) with
  | ok q =>
    exact ⟨_, _, Nat.le_refl _, frameTickIsIteratedCycle s rest _ _ _ hm hr hu hl hk (Memory.read24_pcf s.mem) hc, rfl,
      .inl ⟨rfl, rfl, rfl⟩⟩
  | error e =>
    obtain ⟨k, hlt, m', pc', hok, herr⟩ := cyclesFrom_error hc
    exact ⟨_, _, by omega,
      faultStopsTheFrame s rest _ _ _ k e hm hr hu hl hk (Memory.read24_pcf s.mem) hlt hok herr, rfl,
      .inr ⟨rfl, e, rfl⟩⟩

/-- Settles O30: the first step is the frame start, which takes `PC` from PCF or is refused, whatever `PC` was. -/
theorem frameIgnoresTheOldPc : Obligations.FrameIgnoresTheOldPc := by
  intro s rest p k hm hr
  have hstep : step { s with pc := p } = step s := by
    rw [step_frameTick hm hr, step_frameTick (s := { s with pc := p }) hm hr]
    simp only [frameTick, frameStart_eq]
  rw [run_succ, run_succ, hstep]

/-- Settles O31: the keyboard write, the frame on the memory it leaves, and the two samplings, one after the other. -/
theorem framePeriodRuns : Obligations.FramePeriodRuns := by
  intro s mask rest m1 m' p pc' hm hr hl hw hp hc
  rw [Memory.write16_ok s.mem (by decide)] at hw
  cases hw
  have hsize : Config.memSize = 0x1000000 := rfl
  have hscr := (m'.byte 0x000005).isLt
  have haud := (be16 (m'.byte 0x000006) (m'.byte 0x000007)).isLt
  have hr' : s.requests = .keyWrite mask :: .frameTick :: .screenSample :: .audioSample :: rest := hr
  have hframe := frameTickIsIteratedCycle
    { s with
      mem := (s.mem.setByte 0 (hiByte mask)).setByte 1 (loByte mask)
      keyWritten := some mask
      requests := .frameTick :: .screenSample :: .audioSample :: rest } _ p pc' m' hm rfl rfl hl nofun hp hc
  refine ⟨_, _, ?_, Memory.slice_ok m' (by omega), Memory.slice_ok m' (by omega)⟩
  calc core.run (Config.cyclesPerFrame + 4) s
    _ = core.run (Config.cyclesPerFrame + 1 + 2) _ := run_of_step (step_keyWrite hm hr') _
    _ = core.run 2 _ := run_add hframe 2
    _ = core.run 1 _ := run_of_step (step_screenSample rfl rfl) 1
    _ = _ := run_one_of_step (step_audioSample rfl rfl)

end Sys2Proof.Machine

/-! PROOF. What every run keeps (10_state.md, 20_memory.md R51, 60_exceptions.md): the invariant, which steps write
memory and `PC`, enter FAULTED, start a frame and ready one, all read off the inversion of a step. -/

namespace Sys2Proof.Machine

open Sys2Proof.Safety

/-! ### The run invariant, part by part -/

theorem runInvariant_resetCore (s : State) : RunInvariant (resetCore s) where
  memory := Memory.wf_nil
  count := Nat.zero_le _
  running := nofun
  stopped := nofun
  keyed := nofun

/-- In MODE = IDLE the invariant asks for canonical memory, the bound on N, and KEY as it was written. -/
theorem runInvariant_of_idle {s : State} (hm : s.mode = .idle) (hmem : s.mem.wf)
    (hcount : s.cycles ≤ Config.cyclesPerFrame)
    (hkey : ∀ mask, s.keyWritten = some mask → s.mem.read16 Config.keyAddr = .ok mask) : RunInvariant s where
  memory := hmem
  count := hcount
  running := by simp [hm]
  stopped := by simp [hm]
  keyed := fun mask hk => ⟨hm, hkey mask hk⟩

/-- Outside MODE = IDLE no keyboard write is waiting for its frame (log 9). -/
theorem keyWritten_eq_none {s : State} (h : RunInvariant s) (hm : s.mode ≠ .idle) : s.keyWritten = none := by
  cases hk : s.keyWritten with
  | none => rfl
  | some mask => exact absurd (h.keyed mask hk).1 hm

theorem runInvariant_hostStep {op : HostOp} {s t : State} (h : RunInvariant s) (hm : s.mode = .idle)
    (hstep : hostStep op s = .next t) : RunInvariant t := by
  have hkey : ∀ mask, s.keyWritten = some mask → s.mem.read16 Config.keyAddr = .ok mask :=
    fun mask hk => (h.keyed mask hk).2
  rcases hostStep_cases hstep with ⟨_, _, rfl⟩ | ⟨bytes, _, _, hlen, rfl⟩ | ⟨_, _, _, _, rfl⟩ | ⟨mask, _, rfl⟩ |
    ⟨_, _, _, _, rfl⟩ | ⟨_, _, rfl⟩
  · exact runInvariant_resetCore s
  · exact runInvariant_of_idle hm (Memory.wf_setBytes bytes h.memory (by omega)) h.count nofun
  · exact runInvariant_of_idle hm h.memory h.count hkey
  · refine runInvariant_of_idle hm ?_ h.count ?_
    · exact Memory.wf_setByte (Memory.wf_setByte h.memory (by decide) _) (by decide) _
    · rintro _ ⟨⟩
      exact Memory.read16_setByte_setByte s.mem (addr := 0) (by decide) mask
  · exact ⟨h.memory, Nat.zero_le _, fun _ => ⟨(by decide : 0 < Config.cyclesPerFrame), rfl⟩, nofun, nofun⟩
  · exact runInvariant_of_idle hm h.memory h.count hkey

theorem runInvariant_takeFault {s : State} {e : OutOfRange} (h : RunInvariant s) (hm : s.mode = .run)
    (he : fetchWord s.mem s.pc = .error e) : RunInvariant (s.takeFault e) where
  memory := h.memory
  count := h.count
  running := nofun
  stopped := fun _ => ⟨(h.running hm).1, (h.running hm).2, e, he, rfl⟩
  keyed := by simp [keyWritten_eq_none h (by simp [hm])]

/-- A frame keeps the invariant whatever a cycle makes of memory and `PC`, as long as memory stays canonical. -/
theorem runInvariant_of_run {s : State} (h : RunInvariant s) (hm : s.mode = .run) {m : Memory} (hmem : m.wf)
    (p : Addr) : RunInvariant { s with mem := m, pc := p } where
  memory := hmem
  count := h.count
  running := h.running
  stopped := by simp [hm]
  keyed := by simp [keyWritten_eq_none h (by simp [hm])]

theorem runInvariant_completeCycle {s : State} (h : RunInvariant s) (hm : s.mode = .run) :
    RunInvariant (completeCycle s) := by
  have hkey : s.keyWritten = none := keyWritten_eq_none h (by simp [hm])
  obtain ⟨hcycles, hlaunch⟩ := h.running hm
  rcases Nat.lt_or_ge (s.cycles + 1) Config.cyclesPerFrame with hc | hc
  · rw [completeCycle_more hm hc]
    exact ⟨h.memory, hcycles, fun _ => ⟨hc, hlaunch⟩, by simp [hm], by simp [hkey]⟩
  · rw [completeCycle_last hm hc]
    exact runInvariant_of_idle rfl h.memory hcycles (by simp [hkey])

/-! ### Reading off the inversion of a step -/

theorem requests_of_resetDue {s : State} (h : resetDue s = true) : ∃ k rest, s.requests = .reset k :: rest := by
  unfold resetDue at h
  split at h
  · exact ⟨_, _, ‹_›⟩
  · cases h

/-- Only a RESET is ever due. -/
theorem not_due_of_ne_reset {s : State} {op : HostOp} {rest : List HostOp} (hr : s.requests = op :: rest)
    (hop : ∀ k, op ≠ .reset k) : resetDue s = false := by
  cases hd : resetDue s with
  | false => rfl
  | true =>
    obtain ⟨k, rest', hr'⟩ := requests_of_resetDue hd
    rw [hr] at hr'
    cases hr'
    exact absurd rfl (hop k)

/-- Outside a frame, where no RESET is due, the request that stands first is no RESET. -/
theorem ne_reset_of_not_due {s : State} {op : HostOp} {rest : List HostOp} (hm : s.mode ≠ .run)
    (hd : resetDue s = false) (hr : s.requests = op :: rest) (k : Nat) : op ≠ .reset k := by
  rintro rfl
  simp [resetDue_of_head hm hr] at hd

/-- A host operation that is no RESET changes a byte only by the ROM it loads or the mask it writes to KEY (R51). -/
theorem hostStep_byte {op : HostOp} {s t : State} (h : hostStep op s = .next t) (hop : ∀ k, op ≠ .reset k) (x : Nat) :
    t.mem.byte x = s.mem.byte x ∨ (∃ rom, op = .loadRom rom ∧ rom[x]? = some (t.mem.byte x)) ∨
      (∃ mask, op = .keyWrite mask ∧ x ≤ 1) := by
  rcases hostStep_cases h with ⟨k, rfl, _⟩ | ⟨rom, rfl, _, _, rfl⟩ | ⟨_, _, _, _, rfl⟩ | ⟨mask, rfl, rfl⟩ |
    ⟨_, _, _, _, rfl⟩ | ⟨_, _, rfl⟩
  · exact absurd rfl (hop k)
  · dsimp only
    rw [Memory.byte_setBytes, if_pos (Nat.zero_le x), Nat.sub_zero]
    cases hrom : rom[x]? with
    | none => exact .inl rfl
    | some v => exact .inr (.inl ⟨rom, rfl, hrom⟩)
  · exact .inl rfl
  · rcases Nat.lt_or_ge 1 x with hx | hx
    · exact .inl ((Memory.byte_setByte_ne _ _ (by omega)).trans (Memory.byte_setByte_ne _ _ (by omega)))
    · exact .inr (.inr ⟨mask, rfl, hx⟩)
  · exact .inl rfl
  · exact .inl rfl

/-- A host operation that is no RESET changes `PC` only at a frame start, to PCF (R131). -/
theorem hostStep_pc {op : HostOp} {s t : State} (h : hostStep op s = .next t) (hop : ∀ k, op ≠ .reset k) :
    t.pc = s.pc ∨ (op = .frameTick ∧ t.pc = pcf s.mem) := by
  rcases hostStep_cases h with ⟨k, rfl, _⟩ | ⟨_, _, _, _, rfl⟩ | ⟨_, _, _, _, rfl⟩ | ⟨_, _, rfl⟩ | ⟨_, rfl, _, _, rfl⟩ |
    ⟨_, _, rfl⟩
  · exact absurd rfl (hop k)
  · exact .inl rfl
  · exact .inl rfl
  · exact .inl rfl
  · exact .inr ⟨rfl, rfl⟩
  · exact .inl rfl

/-- A host operation leaves an idle machine idle or starts a frame, which takes the launch not refused and a keyboard
write made. -/
theorem hostStep_mode {op : HostOp} {s t : State} (h : hostStep op s = .next t) (hm : s.mode = .idle) :
    t.mode = .idle ∨ (s.launch ≠ .refused ∧ (∃ mask, s.keyWritten = some mask) ∧ t.mode = .run ∧ t.mem = s.mem ∧
      t.cycles = 0 ∧ t.keyWritten = none) := by
  rcases hostStep_cases h with ⟨_, _, rfl⟩ | ⟨_, _, _, _, rfl⟩ | ⟨_, _, _, _, rfl⟩ | ⟨_, _, rfl⟩ |
    ⟨mask, _, hl, hk, rfl⟩ | ⟨_, _, rfl⟩
  · exact .inl rfl
  · exact .inl hm
  · exact .inl hm
  · exact .inl hm
  · exact .inr ⟨hl, ⟨mask, hk⟩, rfl, rfl, rfl, rfl⟩
  · exact .inl hm

/-! ### Where a step stops -/

/-- An operation outside its moment is refused by its own name; every other one answers a next state (R170). -/
theorem hostStep_outcome (op : HostOp) (s : State) :
    (∃ t, hostStep op s = .next t) ∨
    (hostStep op s = .refused (.notEnabled op) ∧
      (((∃ rom, op = .loadRom rom) ∧ s.launch ≠ .fresh) ∨
        (op = .frameTick ∧ (s.launch = .refused ∨ s.keyWritten = none)))) := by
  cases op with
  | reset k => exact .inl ⟨_, rfl⟩
  | loadRom rom =>
    by_cases hl : s.launch = .fresh
    · rcases Nat.lt_or_ge Config.memSize rom.length with h | h
      · exact .inl ⟨_, loadRom_oversize hl h⟩
      · exact .inl ⟨_, loadRom_fits hl h⟩
    · exact .inr ⟨if_neg hl, .inl ⟨⟨rom, rfl⟩, hl⟩⟩
  | keyWrite mask => exact .inl ⟨_, keyWrite_eq mask s⟩
  | frameTick =>
    by_cases h : s.launch = .refused ∨ s.keyWritten = none
    · exact .inr ⟨frameTick_refused h, .inr ⟨rfl, h⟩⟩
    · obtain ⟨hl, hk⟩ := not_or.1 h
      exact .inl ⟨_, frameTick_starts hl hk⟩
  | screenSample => exact .inl ⟨_, screenSample_eq s⟩
  | audioSample => exact .inl ⟨_, audioSample_eq s⟩
  | dump => exact .inl ⟨_, dump_eq s⟩

/-- While a frame runs a step always answers a next state: a RESET, the frame's end, the fatal error or a cycle. -/
theorem step_next_of_run {s : State} (hm : s.mode = .run) : ∃ t, step s = .next t := by
  cases hd : resetDue s with
  | true => exact ⟨_, step_due hd⟩
  | false =>
    by_cases hc : s.cycles < Config.cyclesPerFrame
    · cases hcycle : cycle s.mem s.pc with
      | ok q => exact ⟨_, step_of_cycle_ok ⟨hm, hc, hd⟩ hcycle⟩
      | error e => exact ⟨_, step_of_cycle_error ⟨hm, hc, hd⟩ hcycle⟩
    · exact ⟨_, (step_run hm hd).trans (if_neg hc)⟩

/-- A step answers a next state, or the operation that stands first is refused, or FAULTED with nothing asked for is the
fault. -/
theorem step_outcome (s : State) :
    (∃ t, step s = .next t) ∨
    (∃ op rest, s.requests = op :: rest ∧ step s = .refused (.notEnabled op) ∧
      (s.mode = .faulted ∨ (s.mode = .idle ∧
        (((∃ rom, op = .loadRom rom) ∧ s.launch ≠ .fresh) ∨
          (op = .frameTick ∧ (s.launch = .refused ∨ s.keyWritten = none)))))) ∨
    (s.mode = .faulted ∧ s.requests = [] ∧ step s = .fault .faulted) := by
  cases hd : resetDue s with
  | true => exact .inl ⟨_, step_due hd⟩
  | false =>
    cases hm : s.mode with
    | run => exact .inl (step_next_of_run hm)
    | idle =>
      rw [step_idle hm hd, idleStep]
      cases hr : s.requests with
      | nil => exact .inl ⟨s, rfl⟩
      | cons op rest =>
        rcases hostStep_outcome op { s with requests := rest } with hnext | ⟨hstop, hwhy⟩
        · exact .inl hnext
        · exact .inr (.inl ⟨op, rest, rfl, hstop, .inr ⟨rfl, hwhy⟩⟩)
    | faulted =>
      rw [step_faulted hm hd, faultedStep]
      cases hr : s.requests with
      | nil => exact .inr (.inr ⟨rfl, rfl, rfl⟩)
      | cons op rest => exact .inr (.inl ⟨op, rest, rfl, rfl, .inl rfl⟩)

/-! ### The obligations -/

/-- Settles O49: by the inversion of a step, each of its outcomes keeps every part of the invariant; the sixth, a frame
with no cycle left, is one the invariant excludes. -/
theorem stepKeepsInvariant : Obligations.StepKeepsInvariant := by
  intro s t h hstep
  rcases step_cases hstep with ⟨_, rfl⟩ | ⟨_, _, rfl⟩ | ⟨hm, _, op, rest, _, hop⟩ | ⟨hm, _, e, he, rfl⟩ |
    ⟨hm, _, w, _, rfl⟩ | ⟨hm, hc, rfl⟩
  · exact runInvariant_resetCore _
  · exact h
  · have hrest : RunInvariant { s with requests := rest } := ⟨h.memory, h.count, h.running, h.stopped, h.keyed⟩
    exact runInvariant_hostStep hrest hm hop
  · exact runInvariant_takeFault h hm he
  · exact runInvariant_completeCycle (runInvariant_of_run h hm (Memory.wf_setByte h.memory (BitVec.isLt _) _) _) hm
  · exact absurd (h.running hm).1 (Nat.not_lt.2 hc)

/-- Settles O48: memory empty, N 0, MODE idle. -/
theorem resetMeetsInvariant : Obligations.ResetMeetsInvariant := runInvariant_resetCore State.reset

/-- Settles O44: with no RESET due the step is `faultedStep`, which answers no next state. -/
theorem faultedIsAbsorbing : Obligations.FaultedIsAbsorbing := by
  intro s hm
  refine ⟨fun hr => ?_, fun op rest hr hop => ?_, fun t hstep => ?_⟩
  · rw [step_faulted hm (by simp [resetDue, hr]), faultedStep, hr]
  · rw [step_faulted hm (not_due_of_ne_reset hr hop), faultedStep, hr]
  · rcases step_cases hstep with ⟨hd, rfl⟩ | ⟨hidle, _⟩ | ⟨hidle, _⟩ | ⟨hrun, _⟩ | ⟨hrun, _⟩ | ⟨hrun, _⟩
    · exact ⟨requests_of_resetDue hd, rfl⟩
    · simp [hm] at hidle
    · simp [hm] at hidle
    · simp [hm] at hrun
    · simp [hm] at hrun
    · simp [hm] at hrun

/-- Settles O45: the idle step without a request is the state itself. -/
theorem idleCoreWaits : Obligations.IdleCoreWaits := by
  intro s hm hr
  rw [step_idle hm (by simp [resetDue, hr]), idleStep, hr]

/-- Settles O46: a RESET that stands first is due, outside a frame at once and within one when its cycles are done. -/
theorem resetWorksInEveryMode : Obligations.ResetWorksInEveryMode := by
  intro s k rest hr hk
  have hd : resetDue s = true := by
    by_cases hm : s.mode = .run
    · simp [resetDue, hr, hk hm]
    · exact resetDue_of_head hm hr
  exact ⟨_, step_due hd, fun _ => rfl, rfl, rfl, rfl, rfl, by simp [hr], rfl⟩

/-- Settles O47: memory is empty, and an unlisted byte reads as zero. -/
theorem resetValues : Obligations.ResetValues :=
  ⟨fun _ => rfl, by decide, by decide, by decide, by decide, rfl, rfl⟩

/-- Settles O50: of the outcomes of a step four change memory, each only where its writes go. -/
theorem onlyFourWritersOfMemory : Obligations.OnlyFourWritersOfMemory := by
  intro s t x hstep hx
  rcases step_cases hstep with ⟨hd, rfl⟩ | ⟨_, _, rfl⟩ | ⟨hm, hd, op, rest, hr, hop⟩ | ⟨_, _, e, _, rfl⟩ |
    ⟨hm, _, w, hw, rfl⟩ | ⟨_, _, rfl⟩
  · exact .inl ⟨hd, rfl⟩
  · exact absurd rfl hx
  · have hne := ne_reset_of_not_due (by simp [hm]) hd hr
    obtain hsame | ⟨rom, rfl, hrom⟩ | ⟨mask, rfl, hkey⟩ := hostStep_byte hop hne x
    · exact absurd hsame hx
    · exact .inr (.inl ⟨hm, rom, rest, hr, hrom⟩)
    · exact .inr (.inr (.inl ⟨hm, mask, rest, hr, hkey⟩))
  · exact absurd rfl hx
  · rw [completeCycle_mem] at hx ⊢
    have hB : x = (fieldB w).toNat := not_not.1 fun hne => hx (Memory.byte_setByte_ne s.mem _ hne)
    subst hB
    exact .inr (.inr (.inr ⟨hm, _, _, _, decode_bytesAt s.mem hw, rfl, Memory.byte_setByte_same _ _ _⟩))
  · exact absurd rfl hx

/-- Settles O51: a cycle takes `PC` to the field J of its own instruction, a frame start to PCF. -/
theorem onlyFrameStartReloadsPc : Obligations.OnlyFrameStartReloadsPc := by
  intro s t hstep hpc
  rcases step_cases hstep with ⟨hd, _⟩ | ⟨_, _, rfl⟩ | ⟨hm, hd, op, rest, hr, hop⟩ | ⟨_, _, e, _, rfl⟩ |
    ⟨hm, _, w, hw, rfl⟩ | ⟨_, _, rfl⟩
  · exact .inl hd
  · exact absurd rfl hpc
  · have hne := ne_reset_of_not_due (by simp [hm]) hd hr
    obtain hsame | ⟨rfl, hpcf⟩ := hostStep_pc hop hne
    · exact absurd hsame hpc
    · exact .inr (.inl ⟨hm, ⟨rest, hr⟩, hpcf ▸ Memory.read24_pcf s.mem⟩)
  · exact absurd rfl hpc
  · rw [completeCycle_pc]
    exact .inr (.inr ⟨hm, _, _, decode_bytesAt s.mem hw⟩)
  · exact absurd rfl hpc

/-- Settles O52: of the outcomes of a step only the fetch that fails leads into FAULTED, and it fails from 0xFFFFF8 on
with a field read that ends beyond memory. -/
theorem onlyTheFetchFaults : Obligations.OnlyTheFetchFaults := by
  intro s t hstep hs ht
  rcases step_cases hstep with ⟨_, rfl⟩ | ⟨_, _, rfl⟩ | ⟨hm, _, op, rest, _, hop⟩ | ⟨hm, _, e, he, rfl⟩ |
    ⟨hm, _, w, _, rfl⟩ | ⟨_, _, rfl⟩
  · cases ht
  · exact absurd ht hs
  · obtain hidle | ⟨_, _, hrun, _⟩ := hostStep_mode hop hm
    · simp [hidle] at ht
    · simp [hrun] at ht
  · have hp := (fetchWord_error_iff s.mem s.pc).1 ⟨e, he⟩
    rw [fetchWord_error s.mem hp] at he
    cases he
    refine ⟨hm, hp, rfl, rfl, rfl, _, rfl, ?_⟩
    split
    · omega
    · split <;> omega
  · exact absurd ((completeCycle_mode_faulted _).1 ht) hs
  · cases ht

/-- Settles O53: a running frame never stops, an idle machine stops only at the operation it refuses, and FAULTED with
the fault or the refusal of what stands first. -/
theorem stepStopsOnlyOutsideTheRules : Obligations.StepStopsOnlyOutsideTheRules := by
  intro s
  refine ⟨fun f hf => ?_, fun r hr => ?_, step_next_of_run⟩
  · rcases step_outcome s with ⟨t, ht⟩ | ⟨op, rest, _, hop, _⟩ | ⟨hm, hnil, _⟩
    · simp [ht] at hf
    · simp [hop] at hf
    · exact ⟨hm, hnil⟩
  · rcases step_outcome s with ⟨t, ht⟩ | ⟨op, rest, hreq, hop, hwhy⟩ | ⟨_, _, hfault⟩
    · simp [ht] at hr
    · rw [hop] at hr
      cases hr
      exact ⟨op, rest, hreq, rfl, hwhy⟩
    · simp [hfault] at hr

/-- Settles O56: the step is a FRAME_TICK's, with a keyboard write made, which by the invariant stands in KEY. -/
theorem keyIsTheMaskAtFrameStart : Obligations.KeyIsTheMaskAtFrameStart := by
  intro s t h hs hstep ht
  rcases step_cases hstep with ⟨_, rfl⟩ | ⟨_, _, rfl⟩ | ⟨hm, _, op, rest, _, hop⟩ | ⟨hm, _⟩ | ⟨hm, _⟩ | ⟨hm, _⟩
  · cases ht
  · exact absurd ht hs
  · obtain hidle | ⟨_, ⟨mask, hk⟩, _, hmem, hcycles, hnone⟩ := hostStep_mode hop hm
    · simp [hidle] at ht
    · exact ⟨mask, hk, hmem ▸ (h.keyed mask hk).2, hcycles, hnone⟩
  · exact absurd hm hs
  · exact absurd hm hs
  · exact absurd hm hs

/-- Settles O57: in a frame no keyboard write is waiting, and of the idle outcomes only KEY_WRITE makes one; those that
keep it change neither memory nor MODE. -/
theorem onlyAKeyWriteReadiesAFrame : Obligations.OnlyAKeyWriteReadiesAFrame := by
  intro s t mask h hstep hk
  rcases step_cases hstep with ⟨_, rfl⟩ | ⟨_, _, rfl⟩ | ⟨hm, _, op, rest, hr, hop⟩ | ⟨hm, _, e, _, rfl⟩ |
    ⟨hm, _, w, _, rfl⟩ | ⟨hm, _, rfl⟩
  · cases hk
  · exact .inr ⟨hk, rfl, rfl⟩
  · rcases hostStep_cases hop with ⟨_, _, rfl⟩ | ⟨_, _, _, _, rfl⟩ | ⟨_, _, _, _, rfl⟩ | ⟨_, rfl, rfl⟩ |
      ⟨_, _, _, _, rfl⟩ | ⟨_, _, rfl⟩
    · cases hk
    · cases hk
    · exact .inr ⟨hk, rfl, rfl⟩
    · cases hk
      exact .inl ⟨hm, rest, hr⟩
    · cases hk
    · exact .inr ⟨hk, rfl, rfl⟩
  all_goals
    have hnone := keyWritten_eq_none h (by simp [hm])
    simp [hnone] at hk

/-- Settles O58: no outcome of a step but the RESET's changes a refused launch, and a frame start takes one that is not
refused. -/
theorem refusedLaunchStaysRefused : Obligations.RefusedLaunchStaysRefused := by
  intro s t hl hd hstep
  rcases step_cases hstep with ⟨hdue, _⟩ | ⟨_, _, rfl⟩ | ⟨hm, _, op, rest, hr, hop⟩ | ⟨hm, _, e, _, rfl⟩ |
    ⟨hm, _, w, _, rfl⟩ | ⟨hm, _, rfl⟩
  · simp [hd] at hdue
  · exact ⟨hl, id⟩
  · have hne := ne_reset_of_not_due (by simp [hm]) hd hr
    rcases hostStep_cases hop with ⟨k, rfl, _⟩ | ⟨_, _, hfresh, _⟩ | ⟨_, _, hfresh, _⟩ | ⟨_, _, rfl⟩ |
      ⟨_, _, hstart, _⟩ | ⟨_, _, rfl⟩
    · exact absurd rfl (hne k)
    · exact absurd (hl.symm.trans hfresh) (by decide)
    · exact absurd (hl.symm.trans hfresh) (by decide)
    · exact ⟨hl, id⟩
    · exact absurd hl hstart
    · exact ⟨hl, id⟩
  · exact ⟨hl, absurd hm⟩
  · exact ⟨(completeCycle_launch _).trans hl, absurd hm⟩
  · exact ⟨hl, absurd hm⟩

end Sys2Proof.Machine
